-- ==== Sys2Proof/Word.lean ====
section
/-! DEFINITION. The two bit-vector types of the block: a received byte and the input word. -/

namespace Sys2Proof

/-- An 8-bit value, bit 0 least significant (`00_scope.md` R13). -/
abbrev Byte := BitVec 8

/-- The 10-bit input word `{RST, IN_VALID, IN_BYTE[7:0]}` of one step (`30_encoding.md` R42). -/
abbrev InputWord := BitVec 10

end Sys2Proof
end

