-- ==== Sys2Proof/Config.lean ====
section
/-! DEFINITION. What an integrator fixes before the first step: the two constants of the wire format
(`00_scope.md` R6, R7) and the parameters (R8 to R12), with the synthetic test configuration of
`95_test_vectors.md` §2. -/

namespace Sys2Proof

/-- `TERM = 0x0D` (R6), for the framer's split and for the decoder's checks. -/
def termByte : Byte := 0x0D#8

/-- `PKT_LEN = 43` (R7), the terminator counted. -/
def pktLen : Nat := 43

/-- The prefix values a field entry may write (R9, R49); NONE is no target. -/
inductive PrefixVal where
  | nano | micro | milli | kilo | mega
  deriving DecidableEq, Repr

/-- The measurement values a field entry may write (R9, R49). `sGlyph` is the display glyph 'S',
which resolves to SECOND or SIEMENS (`41_decoder.md` R82). -/
inductive UnitGlyph where
  | hertz | degF | degC | ohm | ampere | farad | volt | sGlyph
  deriving DecidableEq, Repr

/-- The type values a field entry may write (R9, R49). -/
inductive TypeVal where
  | ac | dc | pw
  deriving DecidableEq, Repr

/-- The annunciator names (R11, `30_encoding.md` R53). `extra bit` is the name that `ANN_EXTRA` gives
to the reserved bit `bit`. -/
inductive AnnName where
  | hold | rel | autoOff | lowBat | continuity | range | duty | max | min | peak | store | recall
  | goNogo | positive | negative | reference | percentPolarity | rs232c | sLower
  | extra (bit : Nat)
  deriving DecidableEq, Repr

/-- The target of a field entry (`30_encoding.md` R49). -/
inductive Target where
  | pfx (v : PrefixVal)
  | unit (v : UnitGlyph)
  | type (v : TypeVal)
  | ann (a : AnnName)
  deriving DecidableEq, Repr

/-- A `FIELD_MAP` entry `(offset, mask, target)` (R9, R49). -/
structure FieldEntry where
  offset : Nat
  mask : Byte
  target : Target
  deriving DecidableEq, Repr

/-- `BAR_ACTIVE = (offset, mask)` (R10). -/
structure BarTest where
  offset : Nat
  mask : Byte
  deriving DecidableEq, Repr

/-- A `BAR_MAP` entry `(offset, bit, weight)` (R10). -/
structure BarEntry where
  offset : Nat
  bit : Nat
  weight : Nat
  deriving DecidableEq, Repr

/-- The parameters of R8 to R12. `annExtra` lists the reserved annunciator bits that `ANN_EXTRA`
names. -/
structure Config where
  capacity : Nat
  fieldMap : List FieldEntry
  barActive : BarTest
  barMap : List BarEntry
  annExtra : List Nat
  wMant : Nat
  deriving DecidableEq, Repr

/-- Entries 1 to 16 of TCFG's `FIELD_MAP` (`95_test_vectors.md` §2): the exclusive groups. -/
def tcfgGroups : List FieldEntry :=
  [⟨3, 0x01#8, .pfx .nano⟩, ⟨3, 0x02#8, .pfx .micro⟩, ⟨3, 0x04#8, .pfx .milli⟩,
   ⟨3, 0x08#8, .pfx .kilo⟩, ⟨3, 0x10#8, .pfx .mega⟩,
   ⟨4, 0x01#8, .unit .hertz⟩, ⟨4, 0x02#8, .unit .degF⟩, ⟨4, 0x04#8, .unit .degC⟩,
   ⟨4, 0x08#8, .unit .ohm⟩, ⟨4, 0x10#8, .unit .ampere⟩,
   ⟨5, 0x01#8, .unit .farad⟩, ⟨5, 0x02#8, .unit .volt⟩, ⟨5, 0x04#8, .unit .sGlyph⟩,
   ⟨6, 0x01#8, .type .ac⟩, ⟨6, 0x02#8, .type .dc⟩, ⟨6, 0x04#8, .type .pw⟩]

/-- Entries 17 to 35 of TCFG's `FIELD_MAP`: the annunciators. -/
def tcfgAnns : List FieldEntry :=
  [⟨7, 0x01#8, .ann .hold⟩, ⟨7, 0x02#8, .ann .rel⟩, ⟨7, 0x04#8, .ann .autoOff⟩,
   ⟨7, 0x08#8, .ann .lowBat⟩, ⟨7, 0x10#8, .ann .continuity⟩,
   ⟨8, 0x01#8, .ann .range⟩, ⟨8, 0x02#8, .ann .duty⟩, ⟨8, 0x04#8, .ann .max⟩,
   ⟨8, 0x08#8, .ann .min⟩, ⟨8, 0x10#8, .ann .peak⟩,
   ⟨9, 0x01#8, .ann .store⟩, ⟨9, 0x02#8, .ann .recall⟩, ⟨9, 0x04#8, .ann .goNogo⟩,
   ⟨9, 0x08#8, .ann .positive⟩, ⟨9, 0x10#8, .ann .negative⟩,
   ⟨10, 0x01#8, .ann .reference⟩, ⟨10, 0x02#8, .ann .percentPolarity⟩,
   ⟨10, 0x04#8, .ann .rs232c⟩, ⟨10, 0x08#8, .ann .sLower⟩]

/-- TCFG's `BAR_MAP`: weight 2^k at byte `11 + ⌊k/5⌋`, bit `k mod 5`. -/
def tcfgBar : List BarEntry :=
  [⟨11, 0, 1⟩, ⟨11, 1, 2⟩, ⟨11, 2, 4⟩, ⟨11, 3, 8⟩, ⟨11, 4, 16⟩,
   ⟨12, 0, 32⟩, ⟨12, 1, 64⟩, ⟨12, 2, 128⟩, ⟨12, 3, 256⟩, ⟨12, 4, 512⟩,
   ⟨13, 0, 1024⟩, ⟨13, 1, 2048⟩, ⟨13, 2, 4096⟩, ⟨13, 3, 8192⟩]

/-- The test configuration TCFG of `95_test_vectors.md` §2 with `CAPACITY = 64`. It is synthetic and
no claim about the device may rest on it; the state after reset carries it because a machine needs
one (DESIGN CHOICE, log entry 1; unsafe for a claim that names no configuration). -/
def tcfg : Config where
  capacity := 64
  fieldMap := tcfgGroups ++ tcfgAnns
  barActive := ⟨6, 0x08#8⟩
  barMap := tcfgBar
  annExtra := []
  wMant := 32

end Sys2Proof
end

