-- ==== Sys2Proof/Machine/ByteClass.lean ====
section
/-! DEFINITION. The byte and character classes of `30_encoding.md` §3 (R46 to R48) and the terminator
test of R44. -/

namespace Sys2Proof.Machine

/-- The framer's and the decoder's terminator test (R44, R73). -/
def isTerm (b : Byte) : Bool := b == termByte

/-- 7-bit ASCII: bit 7 clear (R48). -/
def isAscii (b : Byte) : Bool := !b.getLsbD 7

/-- `WS = {HT, LF, VT, FF, CR, SP}` (R46). -/
def isWs (b : Byte) : Bool :=
  b == 0x09#8 || b == 0x0A#8 || b == 0x0B#8 || b == 0x0C#8 || b == 0x0D#8 || b == 0x20#8

/-- DIGIT, '0'..'9' (R47). -/
def isDigit (c : Byte) : Bool := decide (0x30 ≤ c.toNat) && decide (c.toNat ≤ 0x39)

/-- POINT, '.' (R47). -/
def isPoint (c : Byte) : Bool := c == 0x2E#8

/-- The '+' of SIGN (R47). -/
def isPlus (c : Byte) : Bool := c == 0x2B#8

/-- The '-' of SIGN (R47). -/
def isMinus (c : Byte) : Bool := c == 0x2D#8

/-- OTHER: in no other class of R47. -/
def isOther (c : Byte) : Bool := !(isDigit c || isPoint c || isPlus c || isMinus c)

/-- The operand `d = c − 0x30` of a DIGIT: its low four bits (R47, row PC_DIGIT). -/
def digitOf (c : Byte) : BitVec 4 := c.extractLsb' 0 4

end Sys2Proof.Machine
end

