-- ==== Sys2Proof/Syntax.lean ====
section
/-! DEFINITION. The instructions: one constructor per row of `spec/opcode_table.json`, and the encoded
form in which each arrives. -/

namespace Sys2Proof

/-- One constructor per row of the opcode table. The first four are the block's operations
(`input_word10`); the next three are the byte classes of a packet inside `decode` (`packet_byte8`); the
last five are the character classes of the numeric token inside `parse` (`token_char8`). -/
inductive Instr where
  /-- RESET, `1xxxxxxxxx` (`70_reset_and_hazards.md` R117). -/
  | reset
  /-- IDLE, `00xxxxxxxx` (`40_framer.md` R63). -/
  | idle
  /-- FEED_TERM, `0x10D` (`40_framer.md` R62). -/
  | feedTerm
  /-- FEED_DATA, `01bbbbbbbb` with `b ≠ 0x0D` (`40_framer.md` R61). -/
  | feedData (b : Byte)
  /-- TXT_TERM: a packet byte equal to the terminator (`41_decoder.md` R73). -/
  | txtTerm
  /-- TXT_NONASCII: a packet byte with bit 7 set (`41_decoder.md` R74). -/
  | txtNonAscii (b : Byte)
  /-- TOK_WS: a byte of the text in WS (`41_decoder.md` R75, `30_encoding.md` R46). -/
  | tokWs (b : Byte)
  /-- PC_DIGIT, `0011dddd` with `d ≤ 9` (`42_decimal_parser.md` R94). -/
  | pcDigit (d : BitVec 4)
  /-- PC_POINT, `0x2E` (R95). -/
  | pcPoint
  /-- PC_PLUS, `0x2B` (R96). -/
  | pcPlus
  /-- PC_MINUS, `0x2D` (R96). -/
  | pcMinus
  /-- PC_OTHER: any other character (R97). -/
  | pcOther (c : Byte)
  deriving DecidableEq, Repr

/-- What one step takes. `word` is the block's input word (R42). The other three carry one byte to one
stage of the decoder applied on its own (R89): `scanByte` to the un-escape and ASCII stages (R73, R74),
`textByte` to the tokenising stage (R75), `tokenChar` to the decimal parser (R93). In a run of the
block every input is a `word` (DESIGN CHOICE, log entry 3; safe: it only adds runs). -/
inductive Input where
  | word (w : InputWord)
  | scanByte (b : Byte)
  | textByte (b : Byte)
  | tokenChar (c : Byte)
  deriving DecidableEq, Repr

/-- A packet byte that is in no row of the table for its stage: it makes no instruction and only takes
its place in the scan (R73, R74) or in the open token (R75). -/
inductive PlainByte where
  | scan (b : Byte)
  | text (b : Byte)
  deriving DecidableEq, Repr

end Sys2Proof
end

