-- ==== Sys2Proof/WellFormed.lean ====
section
/-! DEFINITION. Which terms of `Instr` stand for an encoding of the opcode table. -/

namespace Sys2Proof

/-- The operand of each row is one the table admits: FEED_DATA excludes the terminator (R61),
TXT_NONASCII has bit 7 set (R74), TOK_WS is in WS (R46), PC_DIGIT is 0..9 and PC_OTHER is in no other
class (R47). -/
def Instr.wf : Instr → Bool
  | .feedData b => !Machine.isTerm b
  | .txtNonAscii b => !Machine.isAscii b
  | .tokWs b => Machine.isWs b
  | .pcDigit d => decide (d.toNat ≤ 9)
  | .pcOther c => Machine.isOther c
  | .reset => true
  | .idle => true
  | .feedTerm => true
  | .txtTerm => true
  | .pcPoint => true
  | .pcPlus => true
  | .pcMinus => true

end Sys2Proof
end

