-- ==== Sys2Proof/Decode.lean ====
section
/-! DEFINITION. Decoding of the three formats of the opcode table (`30_encoding.md` R42 to R48), total
on any bits, and the encoder written from the same rows. -/

namespace Sys2Proof

open Machine (isTerm isAscii isWs isDigit isPoint isPlus isMinus digitOf)

/-- `IN_BYTE = w[7:0]` (R42). -/
def inByte (w : InputWord) : Byte := w.extractLsb' 0 8

/-- Operation decode (R43): RESET, then IDLE, then FEED_TERM, then FEED_DATA; the first match. -/
def decodeWord (w : InputWord) : Instr :=
  if w.getLsbD 9 then .reset
  else if !w.getLsbD 8 then .idle
  else if isTerm (inByte w) then .feedTerm
  else .feedData (inByte w)

/-- The un-escape and ASCII stages look at a packet byte: the terminator, then a non-ASCII byte; any
other byte has no row (R73, R74). -/
def decodeScan (b : Byte) : Except PlainByte Instr :=
  if isTerm b then .ok .txtTerm
  else if isAscii b then .error (.scan b)
  else .ok (.txtNonAscii b)

/-- The tokenising stage looks at a byte of the text: in WS, or a token character, which has no row
(R75). -/
def decodeText (b : Byte) : Except PlainByte Instr :=
  if isWs b then .ok (.tokWs b) else .error (.text b)

/-- Character class of the parser (R47, R93). -/
def decodeChar (c : Byte) : Instr :=
  if isDigit c then .pcDigit (digitOf c)
  else if isPoint c then .pcPoint
  else if isPlus c then .pcPlus
  else if isMinus c then .pcMinus
  else .pcOther c

/-- The instruction an input stands for, or the byte that has no row at its stage. -/
def decodeInput : Input → Except PlainByte Instr
  | .word w => .ok (decodeWord w)
  | .scanByte b => decodeScan b
  | .textByte b => decodeText b
  | .tokenChar c => .ok (decodeChar c)

/-- The input that carries a table row of 8 bits. The three packet rows come before the token rows: the
terminator and a non-ASCII byte reach the scan (R73, R74), white space reaches the tokeniser (R75), and
only what passes them reaches the parser (R47). -/
def byteInput (b : Byte) : Input :=
  if isTerm b || !isAscii b then .scanByte b
  else if isWs b then .textByte b
  else .tokenChar b

/-- The input made of a table row's bits: rows of up to 8 bits are bytes, longer rows are the input
word, whose bits above 9 do not exist. -/
def inputOfTableWord (nbits w : Nat) : Option Input :=
  if nbits = 0 then none
  else if nbits ≤ 8 then
    if w < 256 then some (byteInput (BitVec.ofNat 8 w)) else none
  else
    if w < 1024 then some (.word (BitVec.ofNat 10 w)) else none

/-- The host's question: the instruction this decoder reads from the bits `w` of a row of `nbits`. -/
def decodeTableWord (nbits w : Nat) : Option Instr :=
  match inputOfTableWord nbits w with
  | none => none
  | some inp =>
    match decodeInput inp with
    | .ok i => some i
    | .error _ => none

/-- The FEED word of a byte, `0x100 | b` (R58). -/
def feedWord (b : Byte) : InputWord := 0x100#10 ||| b.setWidth 10

/-- The encoder, from the rows of the opcode table and R58. Ignored bits are written 0. -/
def encode : Instr → Input
  | .reset => .word 0x200#10
  | .idle => .word 0x000#10
  | .feedTerm => .word 0x10D#10
  | .feedData b => .word (feedWord b)
  | .txtTerm => .scanByte 0x0D#8
  | .txtNonAscii b => .scanByte b
  | .tokWs b => .textByte b
  | .pcDigit d => .tokenChar (0x30#8 ||| d.setWidth 8)
  | .pcPoint => .tokenChar 0x2E#8
  | .pcPlus => .tokenChar 0x2B#8
  | .pcMinus => .tokenChar 0x2D#8
  | .pcOther c => .tokenChar c

end Sys2Proof
end

