-- ==== Sys2Proof/Machine/State.lean ====
section
/-! DEFINITION. The block's state as plain data (`10_state.md`), why a step can stop, and the state
after reset (`70_reset_and_hazards.md` R118). -/

namespace Sys2Proof.Machine

/-- `prefix` values (`30_encoding.md` R50). -/
inductive Pfx where
  | none | nano | micro | milli | kilo | mega
  deriving DecidableEq, Repr

/-- `unit` values (R51). `sUnknown` has a code and no path that yields it. -/
inductive MUnit where
  | none | hertz | degF | degC | ohm | ampere | farad | volt | second | siemens | sUnknown
  deriving DecidableEq, Repr

/-- `mtype` values (R52). -/
inductive MType where
  | none | ac | dc | pw
  deriving DecidableEq, Repr

/-- The published record (`10_state.md` R22). `bar` is `bar_present` with `bar_value`: R22 gives it
the type `Option (Fin 16384)`. -/
structure Measurement where
  mant : Int
  scale : Nat
  pfx : Pfx
  unit : MUnit
  mtype : MType
  bar : Option (Fin 16384)
  ann : BitVec 32
  raw : List Byte
  tidyLen : Nat
  deriving DecidableEq, Repr

/-- The errors of one packet (`30_encoding.md` R54). -/
inductive ErrKind where
  /-- InvalidLength, byte count (R71, R102). -/
  | lengthBytes
  /-- InvalidLength, token layout (R76, R103). -/
  | lengthTokens
  /-- MissingTerminator (R72, R104). -/
  | missingTerminator
  /-- EncodingError (R74, R105). -/
  | encoding
  /-- MalformedValue (R77, R106). -/
  | malformedValue
  deriving DecidableEq, Repr

/-- Phase of the decimal parser (`42_decimal_parser.md` R93). -/
inductive Phase where
  | start | signed | int | frac | err
  deriving DecidableEq, Repr

/-- The parser registers (R93), with the exact accumulator. -/
structure Parser where
  ph : Phase
  neg : Bool
  seen : Bool
  acc : Nat
  scale : Nat
  deriving DecidableEq, Repr

/-- R93's initial values. -/
def Parser.init : Parser := ⟨.start, false, false, 0, 0⟩

/-- Where the un-escape and ASCII stages have got to: the offset of the next byte, the length of the
tidy packet once the first terminator has been met (R73), and whether a non-ASCII byte came before it
(R74). -/
structure Scan where
  off : Nat
  tidyLen : Option Nat
  nonAscii : Bool
  deriving DecidableEq, Repr

/-- Before the first byte of a packet. -/
def Scan.init : Scan := ⟨0, none, false⟩

/-- Where the tokenising stage has got to: the tokens already ended, in order of offset, and the bytes
of the token still open (R75). -/
structure Tokens where
  done : List (List Byte)
  cur : List Byte
  deriving DecidableEq, Repr

/-- Before the first byte of the text. -/
def Tokens.init : Tokens := ⟨[], []⟩

/-- The frame buffer BUF as the list of its written cells, addresses strictly rising. A cell that is
not listed holds ⊥ (R15, R19). -/
abbrev Memory := List Host.Cell

/-- The state of `10_state.md` R17, `buf` to `ovfStb`; the registers of the decoder's units, which R30
keeps out of the block's state between steps, `scan`, `toks` and `parser` (log entry 3); and the model's
own `cfg` (log entry 1) and `inputs` (log entry 2). -/
structure State where
  /-- The parameters of `00_scope.md` R8 to R12; no step changes them (R118). -/
  cfg : Config
  /-- What the producer has driven and the block has not yet taken, oldest first (R27, R114). -/
  inputs : List Input
  /-- BUF (R19). -/
  buf : Memory
  /-- LEN (R20). -/
  len : Nat
  /-- MEAS, `none` for ⊥ (R22). -/
  meas : Option Measurement
  /-- MEAS_VALID (R23). -/
  measValid : Bool
  /-- MEAS_STB (R25). -/
  measStb : Bool
  /-- ERR_STB (R25). -/
  errStb : Bool
  /-- ERR_CODE (R26). -/
  errCode : BitVec 3
  /-- ERR_SUB (R26). -/
  errSub : Bool
  /-- OVF_STB (R25). -/
  ovfStb : Bool
  /-- The un-escape and ASCII stages applied on their own. -/
  scan : Scan
  /-- The tokenising stage applied on its own. -/
  toks : Tokens
  /-- The decimal parser applied on its own (R93). -/
  parser : Parser
  deriving DecidableEq, Repr

/-- Why the machine stops with a fault. -/
inductive Fault where
  /-- A FEED with `LEN ≥ CAPACITY`: the cell does not exist (`20_memory.md` R31). Raised by the write of
  `FEED_COMMON`; safe, and no reachable state has such a LEN (R20). -/
  | bufIndex
  /-- A cell of BUF that holds ⊥ is read (`00_scope.md` R15). Raised by the completion read; safe, and
  no reachable state gets there (R21). -/
  | bufUnwritten
  /-- MEAS is read while it is ⊥ (R24, R122). Raised by the observers' reads only, never by a step;
  safe. -/
  | measUnwritten
  /-- A packed read past word 14 or bit 31 (`30_encoding.md` R55). Raised by the observers' packed reads
  only; safe. -/
  | packedIndex
  /-- A packed read with `W_MANT > 32`, which R55 excludes. Raised by the observers' packed reads only;
  safe. -/
  | packedWidth
  deriving DecidableEq, Repr

/-- Why a step has no meaning. -/
inductive Refusal where
  /-- An instruction without a meaning in the model, by its mnemonic. Raised by no arm now; safe. -/
  | notModelled (mnemonic : String)
  /-- The configuration breaks a constraint of `00_scope.md` R8 to R12: "a configuration that breaks a
  constraint is refused" (R120). Raised by every meaning; safe. -/
  | badConfiguration
  deriving DecidableEq, Repr

/-- The state after RESET and at power-on (R118, R119). The configuration is TCFG with `CAPACITY = 64`
(DESIGN CHOICE, log entry 1) and nothing has been driven (DESIGN CHOICE, log entry 2). -/
def State.reset : State where
  cfg := tcfg
  inputs := []
  buf := []
  len := 0
  meas := none
  measValid := false
  measStb := false
  errStb := false
  errCode := 0#3
  errSub := false
  ovfStb := false
  scan := Scan.init
  toks := Tokens.init
  parser := Parser.init

end Sys2Proof.Machine
end

