-- ==== Sys2Proof/Machine/Flags.lean ====
section
/-! DEFINITION. The block's flags: the strobes and the error outputs (`10_state.md` R25, R26), the error
codes (`30_encoding.md` R54), the events that drive them (`60_exceptions.md` R107 to R109) and the
publication (`41_decoder.md` R87). -/

namespace Sys2Proof.Machine

/-- `ERR_CODE` of an error kind (R54). -/
def errCode : ErrKind → BitVec 3
  | .lengthBytes => 1#3
  | .lengthTokens => 1#3
  | .missingTerminator => 2#3
  | .encoding => 3#3
  | .malformedValue => 4#3

/-- `ERR_SUB` of an error kind: 1 for the token layout only (R54). -/
def errSub : ErrKind → Bool
  | .lengthBytes => false
  | .lengthTokens => true
  | .missingTerminator => false
  | .encoding => false
  | .malformedValue => false

/-- Part 1 of every step: the strobes and error outputs go to 0 (R59). -/
def beginStep (s : State) : State :=
  { s with measStb := false, errStb := false, errCode := 0#3, errSub := false, ovfStb := false }

/-- `emit OVF_EVENT` (R60, R107). -/
def emitOvf (s : State) : State := { s with ovfStb := true }

/-- `emit ERR_EVENT(kind, sub)`: MEAS and MEAS_VALID keep their values (R108). This is the block's one
error entry; there is no trap and no return (R101, R111). -/
def emitErr (k : ErrKind) (s : State) : State :=
  { s with errStb := true, errCode := errCode k, errSub := errSub k }

/-- `publish(m)`: MEAS is replaced whole, MEAS_VALID set, MEAS_STB raised (R87, R36). -/
def publish (m : Measurement) (s : State) : State :=
  { s with meas := some m, measValid := true, measStb := true }

/-- The outcome of a decode on the outputs: publish or error event (R62). -/
def report (r : Except ErrKind Measurement) (s : State) : State :=
  match r with
  | .ok m => publish m s
  | .error k => emitErr k s

end Sys2Proof.Machine
end

