-- ==== Sys2Proof/Machine/Params.lean ====
section
/-! DEFINITION. The constraints a configuration must meet (`00_scope.md` R8 to R12, repeated in
`70_reset_and_hazards.md` R120), and the annunciator bits of `30_encoding.md` R53. -/

namespace Sys2Proof.Machine

/-- The bit of `ann` that an annunciator name stands for (R53). -/
def annBit : AnnName → Nat
  | .hold => 0
  | .rel => 1
  | .autoOff => 2
  | .lowBat => 3
  | .continuity => 4
  | .range => 5
  | .duty => 6
  | .max => 7
  | .min => 8
  | .peak => 9
  | .store => 10
  | .recall => 11
  | .goNogo => 12
  | .positive => 13
  | .negative => 14
  | .reference => 15
  | .percentPolarity => 16
  | .rs232c => 17
  | .sLower => 18
  | .extra bit => bit

/-- Offsets of flag bytes are 3..16 (R9, R10). -/
def offsetOk (o : Nat) : Bool := decide (3 ≤ o) && decide (o ≤ 16)

/-- An extra annunciator is a name that `ANN_EXTRA` gives; every other target is legal by its type
(R9, R49). -/
def targetOk (annExtra : List Nat) : Target → Bool
  | .ann (.extra bit) => annExtra.contains bit
  | _ => true

/-- R9's constraints on one entry. -/
def fieldEntryOk (annExtra : List Nat) (e : FieldEntry) : Bool :=
  offsetOk e.offset && e.mask != 0#8 && targetOk annExtra e.target

/-- `ANN_EXTRA` names reserved bits, 19 to 31, each once (R11). -/
def annExtraOk (xs : List Nat) : Bool :=
  xs.all fun b => decide (19 ≤ b) && decide (b ≤ 31) && xs.count b == 1

/-- How many different bytes `BAR_MAP` reads, of those at offsets 3..16 (R10). -/
def barBytes (m : List BarEntry) : Nat :=
  (List.range 14).countP fun i => m.any fun e => e.offset == i + 3

/-- The weights 2^0 to 2^13 (R10). -/
def barWeights : List Nat := (List.range 14).map fun k => 2 ^ k

/-- R10's constraints on `BAR_MAP`: 14 entries over exactly 3 bytes, no (offset, bit) twice, and the
weights 2^0..2^13 each once. -/
def barMapOk (m : List BarEntry) : Bool :=
  m.length == 14
    && m.all (fun e => offsetOk e.offset && decide (e.bit ≤ 7))
    && barBytes m == 3
    && m.all (fun e => m.countP (fun f => f.offset == e.offset && f.bit == e.bit) == 1)
    && (m.map (·.weight)).isPerm barWeights

/-- R10's constraint on `BAR_ACTIVE`. -/
def barActiveOk (t : BarTest) : Bool := offsetOk t.offset && t.mask != 0#8

/-- A configuration that meets every constraint (R8 to R12, R120). -/
def configOk (c : Config) : Bool :=
  decide (15 ≤ c.capacity)
    && c.fieldMap.all (fieldEntryOk c.annExtra)
    && barActiveOk c.barActive
    && barMapOk c.barMap
    && annExtraOk c.annExtra
    && decide (8 ≤ c.wMant)

end Sys2Proof.Machine
end

