-- ==== Sys2Proof/Machine/Ops.lean ====
section
/-! DEFINITION. The named operations every meaning is made of: the frame buffer's reads and writes
(`20_memory.md` R31, R35), LEN, taking an input, the shape of a step (`40_framer.md` R59), and the
observers' read of MEAS (`10_state.md` R24). -/

namespace Sys2Proof.Machine

/-- The cell at `a`: a byte, or `none` for ⊥ (R15, R19). What an unlisted cell reads as is ⊥. -/
def memRead (m : Memory) (a : Nat) : Option Byte :=
  match m with
  | [] => none
  | (k, v) :: rest => if k = a then some v else memRead rest a

/-- Write the cell at `a`, keeping addresses strictly rising. -/
def memWrite (m : Memory) (a : Nat) (v : Byte) : Memory :=
  match m with
  | [] => [(a, v)]
  | (k, x) :: rest =>
    if a < k then (a, v) :: (k, x) :: rest
    else if a = k then (a, v) :: rest
    else (k, x) :: memWrite rest a v

/-- Every listed address is above `lo`, and they rise strictly. -/
def memRisesFrom (lo : Nat) (m : Memory) : Bool :=
  match m with
  | [] => true
  | (k, _) :: rest => decide (lo ≤ k) && memRisesFrom (k + 1) rest

/-- The canonical form: addresses strictly rising. No entry can equal what an unlisted cell reads as,
since that is ⊥ and an entry holds a byte. -/
def Memory.wf (m : Memory) : Bool := memRisesFrom 0 m

/-- BUF as a whole. -/
def setBuf (m : Memory) (s : State) : State := { s with buf := m }

/-- `BUF[i] <- v` (R14): the index space is 0..`CAPACITY − 1` (R31). -/
def bufWrite (i : Nat) (v : Byte) (s : State) : Except Fault State :=
  if i < s.cfg.capacity then .ok (setBuf (memWrite s.buf i v) s) else .error .bufIndex

/-- The bytes of `n` cells from `i` on, or the fault of a ⊥ among them (R15). -/
def memReadFrom (m : Memory) (i n : Nat) : Except Fault (List Byte) :=
  match n with
  | 0 => .ok []
  | n + 1 =>
    match memRead m i with
    | none => .error .bufUnwritten
    | some b =>
      match memReadFrom m (i + 1) n with
      | .ok bs => .ok (b :: bs)
      | .error f => .error f

/-- The completion read `copy(BUF[0:n))`, one value in arrival order (R33, R35). -/
def bufRead (n : Nat) (s : State) : Except Fault (List Byte) := memReadFrom s.buf 0 n

/-- `LEN <- n` (R14). -/
def setLen (n : Nat) (s : State) : State := { s with len := n }

/-- The scan stage's registers. -/
def setScan (r : Scan) (s : State) : State := { s with scan := r }

/-- The tokenising stage's registers. -/
def setToks (t : Tokens) (s : State) : State := { s with toks := t }

/-- The parser's registers. -/
def setParser (p : Parser) (s : State) : State := { s with parser := p }

/-- The input of the next step: the oldest one driven, or the IDLE word when the producer has driven
none (log entry 2). -/
def nextInput (s : State) : Input :=
  match s.inputs with
  | [] => .word 0x000#10
  | inp :: _ => inp

/-- The state once that input has been taken. -/
def takeInput (s : State) : State := { s with inputs := s.inputs.drop 1 }

/-- The shape of every operation (R59): the configuration is one the spec admits (R120), the strobes
are cleared, and the operation runs to completion. -/
def perform (op : State → Except Fault State) (s : State) : Host.Outcome State Fault Refusal :=
  if configOk s.cfg then
    match op (beginStep s) with
    | .ok t => .next t
    | .error f => .fault f
  else .refused .badConfiguration

/-- An observer's read of MEAS: ⊥ faults, and so does any read while MEAS_VALID is 0 (R24, R122). It
changes nothing (R37). -/
def readMeas (s : State) : Except Fault Measurement :=
  if s.measValid then
    match s.meas with
    | some m => .ok m
    | none => .error .measUnwritten
  else .error .measUnwritten

end Sys2Proof.Machine
end

