-- ==== Sys2Proof/Machine/DecimalParser.lean ====
section
/-! DEFINITION. The ASCII-to-signed-decimal parser (`42_decimal_parser.md`): the transition of each
character class, the result, the whole parse, the bounded form of R100, and the meanings of the five
PC rows. -/

namespace Sys2Proof.Machine

/-- DIGIT with operand `d` (R94). -/
def parserDigit (d : Nat) (r : Parser) : Parser :=
  match r.ph with
  | .start => { r with acc := 10 * r.acc + d, seen := true, ph := .int }
  | .signed => { r with acc := 10 * r.acc + d, seen := true, ph := .int }
  | .int => { r with acc := 10 * r.acc + d, seen := true, ph := .int }
  | .frac => { r with acc := 10 * r.acc + d, seen := true, scale := r.scale + 1 }
  | .err => r

/-- POINT (R95). -/
def parserPoint (r : Parser) : Parser :=
  match r.ph with
  | .start => { r with ph := .frac }
  | .signed => { r with ph := .frac }
  | .int => { r with ph := .frac }
  | .frac => { r with ph := .err }
  | .err => { r with ph := .err }

/-- SIGN, `neg` for '-' (R96). -/
def parserSign (neg : Bool) (r : Parser) : Parser :=
  match r.ph with
  | .start => { r with neg := neg, ph := .signed }
  | .signed => { r with ph := .err }
  | .int => { r with ph := .err }
  | .frac => { r with ph := .err }
  | .err => { r with ph := .err }

/-- OTHER (R97). -/
def parserOther (r : Parser) : Parser := { r with ph := .err }

/-- The transition of one character, by its class (R93, R47). -/
def parserStep (r : Parser) (c : Byte) : Parser :=
  if isDigit c then parserDigit (digitOf c).toNat r
  else if isPoint c then parserPoint r
  else if isPlus c then parserSign false r
  else if isMinus c then parserSign true r
  else parserOther r

/-- `LIM` of R98. -/
def magnitudeLimit (wMant : Nat) (neg : Bool) : Nat :=
  if neg then 2 ^ (wMant - 1) else 2 ^ (wMant - 1) - 1

/-- End of token: accept and range check (R98). -/
def parserResult (wMant : Nat) (r : Parser) : Option (Int × Nat) :=
  if r.ph = .err ∨ r.seen = false then none
  else if r.acc > magnitudeLimit wMant r.neg then none
  else some (if r.neg then -(r.acc : Int) else (r.acc : Int), r.scale)

/-- `parse(t)` (R91): `none` is FAIL. -/
def parse (wMant : Nat) (t : List Byte) : Option (Int × Nat) :=
  parserResult wMant (t.foldl parserStep Parser.init)

/-- The parser of R100: `reg` stands for the `(W_MANT + 4)`-bit register, `ovf` for the sticky overflow
bit, and the rest is as in R93. -/
structure BoundedParser where
  ph : Phase
  neg : Bool
  seen : Bool
  reg : Nat
  ovf : Bool
  scale : Nat
  deriving DecidableEq, Repr

/-- R93's initial values for the bounded form. -/
def boundedInit : BoundedParser := ⟨.start, false, false, 0, false, 0⟩

/-- The accumulator on a DIGIT, R100: while `reg ≤ 2^(W_MANT−1)` the register takes `10·reg + d`; when the
value the register held or takes exceeds that bound, `ovf` is set and stays set. The register keeps
`W_MANT + 4` bits. -/
def boundedAccumulate (wMant d : Nat) (r : BoundedParser) : BoundedParser :=
  let v := (10 * r.reg + d) % 2 ^ (wMant + 4)
  if r.ovf then r
  else { r with reg := v, ovf := decide (v > 2 ^ (wMant - 1)) }

/-- One character in the bounded form: R94 to R97 with R100's accumulator. -/
def boundedStep (wMant : Nat) (r : BoundedParser) (c : Byte) : BoundedParser :=
  if isDigit c then
    match r.ph with
    | .err => r
    | .frac =>
      { boundedAccumulate wMant (digitOf c).toNat r with seen := true, scale := r.scale + 1 }
    | _ => { boundedAccumulate wMant (digitOf c).toNat r with seen := true, ph := .int }
  else if isPoint c then
    match r.ph with
    | .err => r
    | .frac => { r with ph := .err }
    | _ => { r with ph := .frac }
  else if isPlus c || isMinus c then
    match r.ph with
    | .start => { r with neg := isMinus c, ph := .signed }
    | _ => { r with ph := .err }
  else { r with ph := .err }

/-- R98's result when `ovf` takes part in the failure (R100). -/
def boundedResult (wMant : Nat) (r : BoundedParser) : Option (Int × Nat) :=
  if r.ph = .err ∨ r.seen = false ∨ r.ovf = true then none
  else if r.reg > magnitudeLimit wMant r.neg then none
  else some (if r.neg then -(r.reg : Int) else (r.reg : Int), r.scale)

/-- The whole parse in the bounded form (R100). -/
def boundedParse (wMant : Nat) (t : List Byte) : Option (Int × Nat) :=
  boundedResult wMant (t.foldl (boundedStep wMant) boundedInit)

/-- PC_DIGIT (R94). -/
def execPcDigit (d : BitVec 4) (s : State) : Host.Outcome State Fault Refusal :=
  perform (fun t => .ok (setParser (parserDigit d.toNat t.parser) t)) s

/-- PC_POINT (R95). -/
def execPcPoint (s : State) : Host.Outcome State Fault Refusal :=
  perform (fun t => .ok (setParser (parserPoint t.parser) t)) s

/-- PC_PLUS (R96). -/
def execPcPlus (s : State) : Host.Outcome State Fault Refusal :=
  perform (fun t => .ok (setParser (parserSign false t.parser) t)) s

/-- PC_MINUS (R96). -/
def execPcMinus (s : State) : Host.Outcome State Fault Refusal :=
  perform (fun t => .ok (setParser (parserSign true t.parser) t)) s

/-- PC_OTHER (R97): every character of the class alike. -/
def execPcOther (_c : Byte) (s : State) : Host.Outcome State Fault Refusal :=
  perform (fun t => .ok (setParser (parserOther t.parser) t)) s

end Sys2Proof.Machine
end

