-- ==== Sys2Proof/Machine/Operands.lean ====
section
/-! DEFINITION. The operand forms: a packet byte at an offset, a bit of it, a mask test on it
(`41_decoder.md` R78), and the output codes of the enumerations (`30_encoding.md` R50 to R52). -/

namespace Sys2Proof.Machine

/-- `p[o]` of a packet; decode reads offsets 3..16 of 43 bytes, so there is always one (R71, R9). -/
def packetByte (p : List Byte) (o : Nat) : Byte := p.getD o 0#8

/-- `p[o][b]`, bit `b` of the byte at `o`, as a number (R13). -/
def packetBit (p : List Byte) (o b : Nat) : Nat := if (packetByte p o).getLsbD b then 1 else 0

/-- `(p[offset] & mask) == mask`: every bit of the mask is set (R78). -/
def maskTest (p : List Byte) (offset : Nat) (mask : Byte) : Bool :=
  (packetByte p offset &&& mask) == mask

/-- The test of a `FIELD_MAP` entry, on the raw packet (R78). -/
def fieldTest (p : List Byte) (e : FieldEntry) : Bool := maskTest p e.offset e.mask

/-- `prefix` codes (R50). -/
def pfxCode : Pfx → BitVec 3
  | .none => 0#3
  | .nano => 1#3
  | .micro => 2#3
  | .milli => 3#3
  | .kilo => 4#3
  | .mega => 5#3

/-- `unit` codes (R51). -/
def unitCode : MUnit → BitVec 4
  | .none => 0#4
  | .hertz => 1#4
  | .degF => 2#4
  | .degC => 3#4
  | .ohm => 4#4
  | .ampere => 5#4
  | .farad => 6#4
  | .volt => 7#4
  | .second => 8#4
  | .siemens => 9#4
  | .sUnknown => 10#4

/-- `mtype` codes (R52). -/
def mtypeCode : MType → BitVec 2
  | .none => 0#2
  | .ac => 1#2
  | .dc => 2#2
  | .pw => 3#2

end Sys2Proof.Machine
end

