-- ==== Sys2Proof/Machine/Fields.lean ====
section
/-! DEFINITION. Stages 5 to 7 of the decoder: the pulse-width flag (`41_decoder.md` R79), the three
exclusive groups (R80, R81, R83), the 'S' tie-break (R82), the bar graph (R84) and the annunciators
(R85). -/

namespace Sys2Proof.Machine

/-- The `prefix` value a PREFIX entry writes (R80). -/
def pfxOf : PrefixVal → Pfx
  | .nano => .nano
  | .micro => .micro
  | .milli => .milli
  | .kilo => .kilo
  | .mega => .mega

/-- The `unit` value a UNIT entry writes; the glyph 'S' is SECOND with the pulse-width flag and SIEMENS
without (R81, R82). -/
def unitOf (pw : Bool) : UnitGlyph → MUnit
  | .hertz => .hertz
  | .degF => .degF
  | .degC => .degC
  | .ohm => .ohm
  | .ampere => .ampere
  | .farad => .farad
  | .volt => .volt
  | .sGlyph => if pw then .second else .siemens

/-- The `mtype` value a TYPE entry writes (R83). -/
def mtypeOf : TypeVal → MType
  | .ac => .ac
  | .dc => .dc
  | .pw => .pw

/-- What an entry writes into the prefix group, if it is a PREFIX entry that tests true. -/
def pfxWrite (p : List Byte) (e : FieldEntry) : Option Pfx :=
  match e.target with
  | .pfx v => if fieldTest p e then some (pfxOf v) else none
  | _ => none

/-- What an entry writes into the unit group. -/
def unitWrite (p : List Byte) (pw : Bool) (e : FieldEntry) : Option MUnit :=
  match e.target with
  | .unit v => if fieldTest p e then some (unitOf pw v) else none
  | _ => none

/-- What an entry writes into the type group. -/
def mtypeWrite (p : List Byte) (e : FieldEntry) : Option MType :=
  match e.target with
  | .type v => if fieldTest p e then some (mtypeOf v) else none
  | _ => none

/-- The annunciator bit an entry sets, if it tests true (R85). -/
def annWrite (p : List Byte) (e : FieldEntry) : Option Nat :=
  match e.target with
  | .ann a => if fieldTest p e then some (annBit a) else none
  | _ => none

/-- The entry is a true TYPE(PW) entry (R79). -/
def pulseTest (p : List Byte) (e : FieldEntry) : Bool :=
  match e.target with
  | .type .pw => fieldTest p e
  | _ => false

/-- The pulse-width flag: the test result, not the resolved type (R79). -/
def pulseWidth (m : List FieldEntry) (p : List Byte) : Bool := m.any (pulseTest p)

/-- Prefix, last writer wins, in list order (R80). -/
def resolvePfx (m : List FieldEntry) (p : List Byte) : Pfx :=
  m.foldl (fun v e => (pfxWrite p e).getD v) .none

/-- Measurement unit, last writer wins, in list order (R81). -/
def resolveUnit (m : List FieldEntry) (pw : Bool) (p : List Byte) : MUnit :=
  m.foldl (fun v e => (unitWrite p pw e).getD v) .none

/-- Measurement type, last writer wins, in list order (R83). -/
def resolveMtype (m : List FieldEntry) (p : List Byte) : MType :=
  m.foldl (fun v e => (mtypeWrite p e).getD v) .none

/-- The weighted sum of the bar graph's bits (R84, R56). -/
def barSum (m : List BarEntry) (p : List Byte) : Nat :=
  (m.map fun e => packetBit p e.offset e.bit * e.weight).sum

/-- Bar graph: present exactly when its active test is true (R84). The sum of a valid `BAR_MAP` is
below 16384, so narrowing it to 14 bits drops nothing. -/
def barGraph (c : Config) (p : List Byte) : Option (Fin 16384) :=
  if maskTest p c.barActive.offset c.barActive.mask then
    some (Fin.ofNat 16384 (barSum c.barMap p))
  else none

/-- Set bit `b` of the annunciator word. -/
def setAnn (w : BitVec 32) (b : Nat) : BitVec 32 := w ||| (1#32 <<< b)

/-- Annunciators: a true entry sets its flag and none clears one (R85). -/
def annunciators (m : List FieldEntry) (p : List Byte) : BitVec 32 :=
  m.foldl (fun w e => ((annWrite p e).map (setAnn w)).getD w) 0#32

end Sys2Proof.Machine
end

