-- ==== Sys2Proof/Machine/Text.lean ====
section
/-! DEFINITION. Stages 3 and 4 of the decoder: un-escape (`41_decoder.md` R73), ASCII check (R74) and
tokenising (R75), each as the passage of one byte, with the meanings of TXT_TERM, TXT_NONASCII and
TOK_WS and of the bytes that have no row. -/

namespace Sys2Proof.Machine

/-- A terminator passes the scan: the first one ends the useful span at its offset (R73). -/
def scanTerm (r : Scan) : Scan :=
  { r with off := r.off + 1, tidyLen := some (r.tidyLen.getD r.off) }

/-- A non-ASCII byte passes the scan: it counts only inside the span (R74). -/
def scanNonAscii (r : Scan) : Scan :=
  { r with off := r.off + 1, nonAscii := r.nonAscii || r.tidyLen.isNone }

/-- Any other byte passes the scan. -/
def scanPlain (r : Scan) : Scan := { r with off := r.off + 1 }

/-- One byte of the packet passes the scan. -/
def scanStep (r : Scan) (b : Byte) : Scan :=
  if isTerm b then scanTerm r
  else if isAscii b then scanPlain r
  else scanNonAscii r

/-- The scan of a whole packet. -/
def scanPacket (p : List Byte) : Scan := p.foldl scanStep Scan.init

/-- `k`, the offset of the first terminator (R73). The default is for a packet without one, which fails
before this stage (R72). -/
def tidyLength (p : List Byte) : Nat := (scanPacket p).tidyLen.getD p.length

/-- `tidy = p[0:k)` (R73). -/
def tidyOf (p : List Byte) : List Byte := p.take (tidyLength p)

/-- A non-ASCII byte stands before the first terminator (R74). -/
def nonAsciiInSpan (p : List Byte) : Bool := (scanPacket p).nonAscii

/-- A byte in WS ends the open token, if one is open (R75). -/
def tokBreak (t : Tokens) : Tokens :=
  if t.cur.isEmpty then t else { done := t.done ++ [t.cur], cur := [] }

/-- Any other byte is a token character (R46, R75). -/
def tokChar (b : Byte) (t : Tokens) : Tokens := { t with cur := t.cur ++ [b] }

/-- One byte of the text passes the tokeniser. -/
def tokStep (t : Tokens) (b : Byte) : Tokens := if isWs b then tokBreak t else tokChar b t

/-- The tokens once the text has ended. -/
def tokFinish (t : Tokens) : List (List Byte) := (tokBreak t).done

/-- `trim(tidy)`: without the leading and trailing bytes in WS (R75). -/
def trimText (l : List Byte) : List Byte :=
  ((l.dropWhile isWs).reverse.dropWhile isWs).reverse

/-- `tokenize(tidy)`: the maximal runs of bytes not in WS, in order of offset (R75). -/
def tokenize (l : List Byte) : List (List Byte) :=
  tokFinish ((trimText l).foldl tokStep Tokens.init)

/-- TXT_TERM (R73). -/
def execTxtTerm (s : State) : Host.Outcome State Fault Refusal :=
  perform (fun t => .ok (setScan (scanTerm t.scan) t)) s

/-- TXT_NONASCII (R74): whatever the byte, a non-ASCII byte is one. -/
def execTxtNonAscii (_b : Byte) (s : State) : Host.Outcome State Fault Refusal :=
  perform (fun t => .ok (setScan (scanNonAscii t.scan) t)) s

/-- TOK_WS (R75): every byte of WS separates alike. -/
def execTokWs (_b : Byte) (s : State) : Host.Outcome State Fault Refusal :=
  perform (fun t => .ok (setToks (tokBreak t.toks) t)) s

/-- A byte that has no row at its stage takes its place there: an ASCII byte in the scan (R73, R74), a
token character in the open token (R75). -/
def passPlain (b : PlainByte) (s : State) : Host.Outcome State Fault Refusal :=
  match b with
  | .scan _ => perform (fun t => .ok (setScan (scanPlain t.scan) t)) s
  | .text c => perform (fun t => .ok (setToks (tokChar c t.toks) t)) s

end Sys2Proof.Machine
end

