-- ==== Sys2Proof/Machine/PacketDecoder.lean ====
section
/-! DEFINITION. `decode(p)`, the pure function from one packet to a record or one error, its stages in
the source's order (`41_decoder.md` R70 to R88). -/

namespace Sys2Proof.Machine

/-- Record assembly: every field from this packet alone (R86). -/
def assemble (c : Config) (p : List Byte) (value : Int × Nat) : Measurement where
  mant := value.1
  scale := value.2
  pfx := resolvePfx c.fieldMap p
  unit := resolveUnit c.fieldMap (pulseWidth c.fieldMap p) p
  mtype := resolveMtype c.fieldMap p
  bar := barGraph c p
  ann := annunciators c.fieldMap p
  raw := p
  tidyLen := tidyLength p

/-- The packet's primary value: token 1 of the text, parsed (R75 to R77). -/
def primaryValue (wMant : Nat) (toks : List (List Byte)) : Except ErrKind (Int × Nat) :=
  match toks with
  | _ :: t :: _ =>
    match parse wMant t with
    | some v => .ok v
    | none => .error .malformedValue
  | _ => .error .lengthTokens

/-- `decode(p)` (R70). The first failing check decides the error (R88). -/
def decode (c : Config) (p : List Byte) : Except ErrKind Measurement :=
  if p.length ≠ pktLen then .error .lengthBytes
  else if p.getD 42 0#8 ≠ termByte then .error .missingTerminator
  else if nonAsciiInSpan p then .error .encoding
  else
    match primaryValue c.wMant (tokenize (tidyOf p)) with
    | .ok v => .ok (assemble c p v)
    | .error k => .error k

end Sys2Proof.Machine
end

