-- ==== Sys2Proof/Machine/Framer.lean ====
section
/-! DEFINITION. The block's four operations: IDLE, FEED_DATA and FEED_TERM of `40_framer.md`, and RESET
of `70_reset_and_hazards.md`. -/

namespace Sys2Proof.Machine

/-- Whether `FEED_COMMON` kept the byte (R60). -/
inductive Fed where
  | discarded (s : State)
  | kept (s : State)
  deriving DecidableEq, Repr

/-- `FEED_COMMON(b)`: the byte is written first, and the capacity check comes before any increment and
before the terminator test (R60, R64). -/
def feedCommon (b : Byte) (s : State) : Except Fault Fed :=
  match bufWrite s.len b s with
  | .error f => .error f
  | .ok t =>
    if s.len = s.cfg.capacity - 1 then .ok (.discarded (emitOvf (setLen 0 t)))
    else .ok (.kept t)

/-- A kept terminator completes the packet: copy, `LEN <- 0`, decode, publish or report (R62). -/
def completePacket (s : State) : Except Fault State :=
  match bufRead (s.len + 1) s with
  | .error f => .error f
  | .ok p => .ok (report (decode s.cfg p) (setLen 0 s))

/-- The body of FEED_DATA (R61). -/
def feedDataBody (b : Byte) (s : State) : Except Fault State :=
  match feedCommon b s with
  | .error f => .error f
  | .ok (.discarded t) => .ok t
  | .ok (.kept t) => .ok (setLen (t.len + 1) t)

/-- The body of FEED_TERM (R62). -/
def feedTermBody (s : State) : Except Fault State :=
  match feedCommon termByte s with
  | .error f => .error f
  | .ok (.discarded t) => .ok t
  | .ok (.kept t) => completePacket t

/-- Every element of the state at its reset value (R117, R118); the configuration and what the producer
has yet to drive are no state of the block and stay. -/
def resetState (s : State) : State :=
  { State.reset with cfg := s.cfg, inputs := s.inputs }

/-- RESET (R117). -/
def execReset (s : State) : Host.Outcome State Fault Refusal :=
  perform (fun t => .ok (resetState t)) s

/-- IDLE (R63): `skip`; only the strobe clear of R59 takes effect. -/
def execIdle (s : State) : Host.Outcome State Fault Refusal :=
  perform (fun t => .ok t) s

/-- FEED_TERM (R62). -/
def execFeedTerm (s : State) : Host.Outcome State Fault Refusal :=
  perform feedTermBody s

/-- FEED_DATA (R61). -/
def execFeedData (b : Byte) (s : State) : Host.Outcome State Fault Refusal :=
  perform (feedDataBody b) s

end Sys2Proof.Machine
end

