-- ==== Sys2Proof/Machine/Dispatch.lean ====
section
/-! DEFINITION. The one dispatch: each instruction of the opcode table to its meaning. -/

namespace Sys2Proof.Machine

def exec (i : Instr) (s : State) : Host.Outcome State Fault Refusal :=
  match i with
  -- the block's operations
  | .reset => Sys2Proof.Machine.execReset s
  | .idle => Sys2Proof.Machine.execIdle s
  | .feedTerm => Sys2Proof.Machine.execFeedTerm s
  | .feedData b => Sys2Proof.Machine.execFeedData b s
  -- byte classes of a packet
  | .txtTerm => Sys2Proof.Machine.execTxtTerm s
  | .txtNonAscii b => Sys2Proof.Machine.execTxtNonAscii b s
  | .tokWs b => Sys2Proof.Machine.execTokWs b s
  -- character classes of the numeric token
  | .pcDigit d => Sys2Proof.Machine.execPcDigit d s
  | .pcPoint => Sys2Proof.Machine.execPcPoint s
  | .pcPlus => Sys2Proof.Machine.execPcPlus s
  | .pcMinus => Sys2Proof.Machine.execPcMinus s
  | .pcOther c => Sys2Proof.Machine.execPcOther c s

end Sys2Proof.Machine
end

