-- ==== Sys2Proof/Machine/Step.lean ====
section
/-! DEFINITION. One step: take the next input, decode it, run it (`40_framer.md` R59). -/

namespace Sys2Proof.Machine

/-- One step of the machine. Every meaning clears the strobes before it runs (R59 part 1). -/
def step (s : State) : Host.Outcome State Fault Refusal :=
  match decodeInput (nextInput s) with
  | .ok i => exec i (takeInput s)
  | .error b => passPlain b (takeInput s)

/-- `s` with the instruction of a table row driven as the next input; what was waiting stays behind
it. -/
def State.withFetchWord (s : State) (nbits w : Nat) : State :=
  match inputOfTableWord nbits w with
  | some inp => { s with inputs := inp :: s.inputs }
  | none => s

end Sys2Proof.Machine
end

