-- ==== Sys2Proof/Machine/Packed.lean ====
section
/-! DEFINITION. The packed 15-word read layout of MEAS (`30_encoding.md` R55), as the observers' reads.
They change nothing (`20_memory.md` R37). -/

namespace Sys2Proof.Machine

/-- `bar_present` as a bit (R22). -/
def barPresent (m : Measurement) : BitVec 1 := if m.bar.isSome then 1#1 else 0#1

/-- `bar_value`, 0 when the bar graph is absent (R22). -/
def barValue (m : Measurement) : BitVec 14 :=
  match m.bar with
  | some v => BitVec.ofNat 14 v.val
  | none => 0#14

/-- A field of a packed word, its bit 0 at bit `lo`. -/
def placeField (n : Nat) (v : BitVec n) (lo : Nat) : BitVec 32 := v.setWidth 32 <<< lo

/-- Word 0 while MEAS_VALID is 1. -/
def packedWord0 (m : Measurement) : BitVec 32 :=
  placeField 3 (pfxCode m.pfx) 0 ||| placeField 4 (unitCode m.unit) 3
    ||| placeField 2 (mtypeCode m.mtype) 7 ||| placeField 1 (barPresent m) 9
    ||| placeField 14 (barValue m) 10 ||| placeField 6 (BitVec.ofNat 6 m.scale) 24
    ||| placeField 1 1#1 30

/-- The word of `raw` at word index `4 + j`: byte `4j + i` in bits `[8i+7:8i]`, and 0 past the last
byte. -/
def packedRaw (raw : List Byte) (j : Nat) : BitVec 32 :=
  placeField 8 (raw.getD (4 * j) 0#8) 0 ||| placeField 8 (raw.getD (4 * j + 1) 0#8) 8
    ||| placeField 8 (raw.getD (4 * j + 2) 0#8) 16 ||| placeField 8 (raw.getD (4 * j + 3) 0#8) 24

/-- Word `i` of a published record, `i` in 0..14. -/
def packedWord (m : Measurement) (i : Nat) : BitVec 32 :=
  match i with
  | 0 => packedWord0 m
  | 1 => BitVec.ofInt 32 m.mant
  | 2 => m.ann
  | 3 => BitVec.ofNat 32 m.tidyLen
  | j + 4 => packedRaw m.raw j

/-- An observer reads word `i` whole. The layout needs `W_MANT ≤ 32`, and every word is ⊥ while
MEAS_VALID is 0. -/
def readPackedWord (s : State) (i : Nat) : Except Fault (BitVec 32) :=
  if s.cfg.wMant > 32 then .error .packedWidth
  else if i > 14 then .error .packedIndex
  else
    match readMeas s with
    | .ok m => .ok (packedWord m i)
    | .error f => .error f

/-- An observer reads one bit. Bit 30 of word 0 is MEAS_VALID and reads 0 while the rest is ⊥. -/
def readPackedBit (s : State) (i b : Nat) : Except Fault Bool :=
  if s.cfg.wMant > 32 then .error .packedWidth
  else if i > 14 ∨ b > 31 then .error .packedIndex
  else if i = 0 ∧ b = 30 then .ok s.measValid
  else
    match readMeas s with
    | .ok m => .ok ((packedWord m i).getLsbD b)
    | .error f => .error f

end Sys2Proof.Machine
end

