-- ==== Sys2Proof/Machine/Stimulus.lean ====
section
/-! DEFINITION. The stimulus syntax of `30_encoding.md` R58, the spec's notation for input programs: its
statements, the input words each expands to, and the reading of one line of text. It drives the block
from outside; no step uses it. -/

namespace Sys2Proof.Machine

/-- The base statements and the pseudo-statements of R58. -/
inductive Stmt where
  | reset
  | idle
  | feed (b : Byte)
  | feeds (bs : List Byte)
  | feedx (bs : List Byte)
  | repeatFeed (n : Nat) (b : Byte)
  | idles (n : Nat)
  deriving DecidableEq, Repr

/-- The input words of a statement (R58). -/
def expandStmt : Stmt → List InputWord
  | .reset => [0x200#10]
  | .idle => [0x000#10]
  | .feed b => [feedWord b]
  | .feeds bs => bs.map feedWord
  | .feedx bs => bs.map feedWord
  | .repeatFeed n b => List.replicate n (feedWord b)
  | .idles n => List.replicate n 0x000#10

/-- The input words of a program, one statement after another. -/
def expandProgram (p : List Stmt) : List InputWord := p.flatMap expandStmt

/-- A blank between the parts of a line. -/
def isBlank (c : Char) : Bool := c == ' ' || c == '\t'

/-- Nothing but blanks before the end of the line or a comment. -/
def lineEnds (l : List Char) : Bool :=
  match l.dropWhile isBlank with
  | [] => true
  | c :: _ => c == ';'

/-- The value of a hexadecimal digit. -/
def hexDigit (c : Char) : Option Nat :=
  let n := c.toNat
  if 48 ≤ n ∧ n ≤ 57 then some (n - 48)
  else if 65 ≤ n ∧ n ≤ 70 then some (n - 55)
  else if 97 ≤ n ∧ n ≤ 102 then some (n - 87)
  else none

/-- A byte of two hexadecimal digits. -/
def hexByte (a b : Char) : Option Byte :=
  match hexDigit a, hexDigit b with
  | some x, some y => some (BitVec.ofNat 8 (16 * x + y))
  | _, _ => none

/-- `ascii(c)` (R58). -/
def asciiByte (c : Char) : Option Byte :=
  if c.toNat < 128 then some (BitVec.ofNat 8 c.toNat) else none

/-- The bytes of a FEEDS string up to its closing quote, and what follows: `\r`, `\t` and `\xNN` are
the escapes. -/
def readString : List Char → Option (List Byte × List Char)
  | [] => none
  | '"' :: rest => some ([], rest)
  | '\\' :: 'r' :: rest => (readString rest).map fun x => (0x0D#8 :: x.1, x.2)
  | '\\' :: 't' :: rest => (readString rest).map fun x => (0x09#8 :: x.1, x.2)
  | '\\' :: 'x' :: a :: b :: rest =>
    match hexByte a b, readString rest with
    | some v, some x => some (v :: x.1, x.2)
    | _, _ => none
  | '\\' :: _ => none
  | c :: rest =>
    match asciiByte c, readString rest with
    | some v, some x => some (v :: x.1, x.2)
    | _, _ => none

/-- The hexadecimal pairs of FEEDX, to the end of the line. -/
def readPairs : List Char → Option (List Byte)
  | [] => some []
  | ';' :: _ => some []
  | [c] => if isBlank c then some [] else none
  | a :: b :: rest =>
    if isBlank a then readPairs (b :: rest)
    else
      match hexByte a b, readPairs rest with
      | some v, some vs => some (v :: vs)
      | _, _ => none

/-- A decimal count and what follows it. -/
def readCount (l : List Char) : Option (Nat × List Char) :=
  let ds := l.takeWhile Char.isDigit
  if ds.isEmpty then none
  else some (ds.foldl (fun n c => 10 * n + (c.toNat - 48)) 0, l.dropWhile Char.isDigit)

/-- The operand of FEED, `0xNN` or `'c'`, and what follows it. -/
def readByte : List Char → Option (Byte × List Char)
  | '0' :: 'x' :: a :: b :: rest => (hexByte a b).map fun v => (v, rest)
  | '\'' :: c :: '\'' :: rest => (asciiByte c).map fun v => (v, rest)
  | _ => none

/-- A FEED operand that ends the line. -/
def readLastByte (l : List Char) : Option Byte :=
  match readByte l with
  | some (v, rest) => if lineEnds rest then some v else none
  | none => none

/-- The operands of `REPEAT n FEED 0xNN`. R58 prints no other form; that the byte may also be `'c'` and that
the blanks around FEED may be missing are the model's choice (DESIGN CHOICE, log entry 16). -/
def readRepeat (l : List Char) : Option Stmt :=
  match readCount l with
  | none => none
  | some (n, rest) =>
    let r := rest.dropWhile isBlank
    if r.takeWhile Char.isUpper = ['F', 'E', 'E', 'D'] then
      (readLastByte ((r.drop 4).dropWhile isBlank)).map fun v => .repeatFeed n v
    else none

/-- One line of a program (R58): no statement on an empty or comment line, `none` on a line that is
not of the syntax. R58 prints a blank between a keyword and its operand; that it may be missing is the
model's choice (DESIGN CHOICE, log entry 16). -/
def readLine (l : List Char) : Option (List Stmt) :=
  let r := l.dropWhile isBlank
  let word := r.takeWhile Char.isUpper
  let arg := (r.drop word.length).dropWhile isBlank
  if lineEnds r then some []
  else if word = ['R', 'E', 'S', 'E', 'T'] then
    if lineEnds arg then some [.reset] else none
  else if word = ['I', 'D', 'L', 'E'] then
    if lineEnds arg then some [.idle]
    else
      match readCount arg with
      | some (n, rest) => if lineEnds rest then some [.idles n] else none
      | none => none
  else if word = ['F', 'E', 'E', 'D'] then (readLastByte arg).map fun v => [.feed v]
  else if word = ['F', 'E', 'E', 'D', 'S'] then
    match arg with
    | '"' :: body =>
      match readString body with
      | some (bs, rest) => if lineEnds rest then some [.feeds bs] else none
      | none => none
    | _ => none
  else if word = ['F', 'E', 'E', 'D', 'X'] then (readPairs arg).map fun bs => [.feedx bs]
  else if word = ['R', 'E', 'P', 'E', 'A', 'T'] then (readRepeat arg).map fun st => [st]
  else none

end Sys2Proof.Machine
end

