-- ==== Sys2Proof/Safety.lean ====
section
/-! DEFINITION. The terms claims are stated in: what a good state is, what an observer sees in a run, and
the plain readings of the spec (grammar of a number, list framer, constraints of a configuration) that
the machine is compared with. -/

namespace Sys2Proof.Machine

/-- The next state of an outcome, if there is one. -/
def nextState (o : Host.Outcome State Fault Refusal) : Option State :=
  match o with
  | .next t => some t
  | .fault _ => none
  | .refused _ => none

/-- The bytes of the current partial packet are `q`: cell `i` holds `q[i]` for every `i < LEN`
(`10_state.md` R20, R21). -/
def HoldsPacket (s : State) (q : List Byte) : Prop :=
  q.length = s.len ∧ ∀ i, i < s.len → memRead s.buf i = q[i]?

/-- A published record that a framed packet can have: it is its own packet's decode, the packet has one
terminator, at offset 42, and every byte before it is ASCII (`10_state.md` R24, `41_decoder.md` §5). -/
def RecordOk (c : Config) (m : Measurement) : Prop :=
  decode c m.raw = .ok m ∧ m.tidyLen = 42 ∧
    ∀ i, i < 42 → isTerm (m.raw.getD i 0#8) = false ∧ isAscii (m.raw.getD i 0#8) = true

/-- At most one strobe is 1 (`10_state.md` R25, `60_exceptions.md` R110). -/
def StrobesExclusive (s : State) : Prop :=
  ¬(s.measStb = true ∧ s.errStb = true) ∧ ¬(s.measStb = true ∧ s.ovfStb = true) ∧
    ¬(s.errStb = true ∧ s.ovfStb = true)

/-- The error outputs are 0 without ERR_STB, and with it hold a code the framer path can report
(`10_state.md` R26, `30_encoding.md` R54, `41_decoder.md` §5). -/
def ErrorOutputsOk (s : State) : Prop :=
  (s.errStb = false → s.errCode = 0#3 ∧ s.errSub = false) ∧
    (s.errStb = true →
      (s.errCode = 1#3 ∨ s.errCode = 3#3 ∨ s.errCode = 4#3) ∧ (s.errSub = true → s.errCode = 1#3))

/-- The invariant of the block: an admitted configuration; BUF in canonical form and inside its index
space; LEN in range (R20); every cell below LEN written, and with no terminator (R21, R61); MEAS_VALID
agrees with MEAS (R24); a good record; strobes and error outputs as R25 and R26 say. -/
def BlockInv (s : State) : Prop :=
  configOk s.cfg = true ∧
  Memory.wf s.buf = true ∧
  (∀ a, s.cfg.capacity ≤ a → memRead s.buf a = none) ∧
  s.len < s.cfg.capacity ∧
  (∀ i, i < s.len → ∃ b, memRead s.buf i = some b ∧ isTerm b = false) ∧
  s.measValid = s.meas.isSome ∧
  (∀ m, s.meas = some m → RecordOk s.cfg m) ∧
  StrobesExclusive s ∧
  ErrorOutputsOk s

/-- What an observer that samples every strobe sees of a step (`60_exceptions.md` R109). -/
inductive Event where
  | published (m : Measurement)
  | error (code : BitVec 3) (sub : Bool)
  | overflow
  deriving DecidableEq, Repr

/-- The events of the step that ended in `s`. -/
def eventsAt (s : State) : List Event :=
  (if s.measStb then (s.meas.map Event.published).toList else [])
    ++ (if s.errStb then [Event.error s.errCode s.errSub] else [])
    ++ (if s.ovfStb then [Event.overflow] else [])

/-- The state after a list of input words, one step each (R59), or `none` where a step stops. -/
def runWords (ws : List InputWord) (s : State) : Option State :=
  match ws with
  | [] => some s
  | w :: rest =>
    match nextState (exec (decodeWord w) s) with
    | some t => runWords rest t
    | none => none

/-- The events of a list of input words, in order. -/
def eventsOf (ws : List InputWord) (s : State) : List Event :=
  match ws with
  | [] => []
  | w :: rest =>
    match nextState (exec (decodeWord w) s) with
    | some t => eventsAt t ++ eventsOf rest t
    | none => []

/-- An IDLE word (`30_encoding.md` R43). -/
def isIdleWord (w : InputWord) : Bool := !w.getLsbD 9 && !w.getLsbD 8

/-- A RESET word (R43). -/
def isResetWord (w : InputWord) : Bool := w.getLsbD 9

/-- The events of one decode (R62). -/
def decodeEvent (r : Except ErrKind Measurement) : Event :=
  match r with
  | .ok m => .published m
  | .error k => .error (errCode k) (errSub k)

/-- The framer on lists, with no buffer: `q` is the partial packet (`40_framer.md` R60 to R63). -/
def listFramer (c : Config) (q : List Byte) (ws : List InputWord) : List Event :=
  match ws with
  | [] => []
  | w :: rest =>
    if isResetWord w then listFramer c [] rest
    else if isIdleWord w then listFramer c q rest
    else if q.length + 1 = c.capacity then .overflow :: listFramer c [] rest
    else if inByte w = termByte then decodeEvent (decode c (q ++ [termByte])) :: listFramer c [] rest
    else listFramer c (q ++ [inByte w]) rest

/-- The number a string of decimal digits denotes. -/
def decimalValue (ds : List Byte) : Nat := ds.foldl (fun n c => 10 * n + (c.toNat - 0x30)) 0

/-- A decimal digit character. -/
def IsDigitChar (c : Byte) : Prop := 0x30 ≤ c.toNat ∧ c.toNat ≤ 0x39

/-- The grammar of `42_decimal_parser.md` R92: `t = sign? int ( '.' frac )?` with at least one digit. -/
def DecimalToken (t sign int point frac : List Byte) : Prop :=
  t = sign ++ int ++ point ++ frac ∧
  (sign = [] ∨ sign = [0x2B#8] ∨ sign = [0x2D#8]) ∧
  (∀ c ∈ int, IsDigitChar c) ∧ (∀ c ∈ frac, IsDigitChar c) ∧
  (point = [0x2E#8] ∨ (point = [] ∧ frac = [])) ∧
  1 ≤ int.length + frac.length

/-- The rational number a record's `mant` and `scale` stand for (`42_decimal_parser.md` R99). -/
def primaryNumber (mant : Int) (scale : Nat) : ℚ := mant / 10 ^ scale

/-- An entry of `FIELD_MAP` as R9 and R49 constrain it. -/
def FieldEntryConstraint (c : Config) (e : FieldEntry) : Prop :=
  3 ≤ e.offset ∧ e.offset ≤ 16 ∧ e.mask ≠ 0#8 ∧
    ∀ bit, e.target = .ann (.extra bit) → bit ∈ c.annExtra

/-- `BAR_ACTIVE` and `BAR_MAP` as R10 constrains them. -/
def BarConstraint (c : Config) : Prop :=
  3 ≤ c.barActive.offset ∧ c.barActive.offset ≤ 16 ∧ c.barActive.mask ≠ 0#8 ∧
  c.barMap.length = 14 ∧
  (∀ e ∈ c.barMap, 3 ≤ e.offset ∧ e.offset ≤ 16 ∧ e.bit ≤ 7) ∧
  (c.barMap.map (·.offset)).toFinset.card = 3 ∧
  (c.barMap.map fun e => (e.offset, e.bit)).Nodup ∧
  ∀ k, k < 14 → (c.barMap.map (·.weight)).count (2 ^ k) = 1

/-- The constraints of R8 to R12 together. -/
def ConfigConstraint (c : Config) : Prop :=
  15 ≤ c.capacity ∧ (∀ e ∈ c.fieldMap, FieldEntryConstraint c e) ∧ BarConstraint c ∧
    c.annExtra.Nodup ∧ (∀ b ∈ c.annExtra, 19 ≤ b ∧ b ≤ 31) ∧ 8 ≤ c.wMant

/-- `e` is the last entry of `m` that `writes`: no entry after it does (`41_decoder.md` R80, R81,
R83). -/
def IsLastWriter (m : List FieldEntry) (writes : FieldEntry → Prop) (e : FieldEntry) : Prop :=
  ∃ before after, m = before ++ e :: after ∧ writes e ∧ ∀ e' ∈ after, ¬writes e'

/-- A true PREFIX entry. -/
def WritesPfx (p : List Byte) (e : FieldEntry) : Prop :=
  (∃ v, e.target = .pfx v) ∧ fieldTest p e = true

/-- A true UNIT entry. -/
def WritesUnit (p : List Byte) (e : FieldEntry) : Prop :=
  (∃ v, e.target = .unit v) ∧ fieldTest p e = true

/-- A true TYPE entry. -/
def WritesType (p : List Byte) (e : FieldEntry) : Prop :=
  (∃ v, e.target = .type v) ∧ fieldTest p e = true

/-- What RESET, FEED_DATA, FEED_TERM and IDLE leave alone: the configuration, the waiting inputs and
the units of the decoder. -/
def SameOutside (s t : State) : Prop :=
  t.cfg = s.cfg ∧ t.inputs = s.inputs ∧ t.scan = s.scan ∧ t.toks = s.toks ∧ t.parser = s.parser

/-- What the rows of the decoder's units leave alone: the configuration, the waiting inputs and every
element of R17 but the strobes, which every step clears (R59). -/
def SameBlock (s t : State) : Prop :=
  t.cfg = s.cfg ∧ t.inputs = s.inputs ∧ t.buf = s.buf ∧ t.len = s.len ∧ t.meas = s.meas ∧
    t.measValid = s.measValid

/-- The strobes and the error outputs are 0. -/
def Quiet (s : State) : Prop :=
  s.measStb = false ∧ s.errStb = false ∧ s.errCode = 0#3 ∧ s.errSub = false ∧ s.ovfStb = false

/-- The only error output is ERR_STB with the codes of `k`. -/
def Reports (k : ErrKind) (s : State) : Prop :=
  s.measStb = false ∧ s.errStb = true ∧ s.errCode = errCode k ∧ s.errSub = errSub k ∧
    s.ovfStb = false

/-- BUF after one write: cell `a` holds `v` and every other cell reads as before. -/
def WroteCell (s t : State) (a : Nat) (v : Byte) : Prop :=
  ∀ i, memRead t.buf i = if i = a then some v else memRead s.buf i

end Sys2Proof.Machine
end

