-- ==== Sys2Proof/Certificates/Slice0/Obligations.lean ====
section
/-! DEFINITION. The statements for the provers. Each docstring names the rule or section of spec/ it
formalises; where it rests on the model's own choice it names the log entry. -/

open Sys2Proof Sys2Proof.Machine

/-! ### Encodings (`30_encoding.md`, opcode table) -/

/-- For every well-formed instruction of the table, decoding its encoding gives it back, whatever its
operand. -/
def Obligations.DecodeOfEncodeIsTheInstruction : Prop :=
  ∀ i : Instr, i.wf = true → decodeInput (encode i) = .ok i

/-- The other direction: what decodes to an instruction is its encoding, but for the bits RESET and IDLE
ignore. -/
def Obligations.DecodedInputIsTheEncoding : Prop :=
  ∀ (inp : Input) (i : Instr), decodeInput inp = .ok i →
    encode i = inp ∨
      (i = .reset ∧ ∃ w, inp = .word w ∧ w.getLsbD 9 = true) ∨
      (i = .idle ∧ ∃ w, inp = .word w ∧ w.getLsbD 9 = false ∧ w.getLsbD 8 = false)

/-- R43: the match and mask of each operation on the 10-bit word. -/
def Obligations.InputWordSelectsExactlyOneOperation : Prop :=
  ∀ w : InputWord,
    (decodeWord w = .reset ↔ w &&& 0x200#10 = 0x200#10) ∧
    (decodeWord w = .idle ↔ w &&& 0x300#10 = 0x000#10) ∧
    (decodeWord w = .feedTerm ↔ w = 0x10D#10) ∧
    (∀ b : Byte, decodeWord w = .feedData b ↔
      (w &&& 0x300#10 = 0x100#10 ∧ w ≠ 0x10D#10 ∧ b.toNat = w.toNat % 256)) ∧
    (decodeWord w = .reset ∨ decodeWord w = .idle ∨ decodeWord w = .feedTerm ∨
      ∃ b, decodeWord w = .feedData b)

/-- Words written out from R42, R43, R46 and R47, one per row of the table: each decodes to its row. -/
def Obligations.WrittenOutWordsDecode : Prop :=
  decodeInput (.word 0b1011010011#10) = .ok .reset ∧
  decodeInput (.word 0b0010110101#10) = .ok .idle ∧
  decodeInput (.word 0b0100001101#10) = .ok .feedTerm ∧
  decodeInput (.word 0b0101000001#10) = .ok (.feedData 0x41#8) ∧
  decodeInput (.scanByte 0b00001101#8) = .ok .txtTerm ∧
  decodeInput (.scanByte 0b10000000#8) = .ok (.txtNonAscii 0x80#8) ∧
  decodeInput (.textByte 0b00100000#8) = .ok (.tokWs 0x20#8) ∧
  decodeInput (.tokenChar 0b00110111#8) = .ok (.pcDigit 7#4) ∧
  decodeInput (.tokenChar 0b00101110#8) = .ok .pcPoint ∧
  decodeInput (.tokenChar 0b00101011#8) = .ok .pcPlus ∧
  decodeInput (.tokenChar 0b00101101#8) = .ok .pcMinus ∧
  decodeInput (.tokenChar 0b01100101#8) = .ok (.pcOther 0x65#8)

/-- R47's table of character classes, the operand of a digit being `c − 0x30`; and neither white space nor
a non-ASCII byte is in a token that reaches the parser. -/
def Obligations.TokenCharacterDecodesByClass : Prop :=
  (∀ c : Byte,
    (∀ d : BitVec 4, decodeInput (.tokenChar c) = .ok (.pcDigit d) ↔
      (0x30 ≤ c.toNat ∧ c.toNat ≤ 0x39 ∧ d.toNat = c.toNat - 0x30)) ∧
    (decodeInput (.tokenChar c) = .ok .pcPoint ↔ c.toNat = 0x2E) ∧
    (decodeInput (.tokenChar c) = .ok .pcPlus ↔ c.toNat = 0x2B) ∧
    (decodeInput (.tokenChar c) = .ok .pcMinus ↔ c.toNat = 0x2D) ∧
    (decodeInput (.tokenChar c) = .ok (.pcOther c) ↔
      ¬(0x30 ≤ c.toNat ∧ c.toNat ≤ 0x39) ∧ c.toNat ≠ 0x2E ∧ c.toNat ≠ 0x2B ∧ c.toNat ≠ 0x2D)) ∧
  (∀ p : List Byte, p.length = 43 → p[42]? = some 0x0D#8 → nonAsciiInSpan p = false →
    ∀ t ∈ tokenize (tidyOf p), t ≠ [] ∧ ∀ c ∈ t, isWs c = false ∧ c.toNat ≤ 0x7F)

/-- R46's white space and R48's 7-bit ASCII, on all 256 bytes, and what the scan and the tokeniser make
of each byte. -/
def Obligations.PacketByteDecodesByClass : Prop :=
  ∀ b : Byte,
    (decodeInput (.scanByte b) = .ok .txtTerm ↔ b.toNat = 0x0D) ∧
    (decodeInput (.scanByte b) = .ok (.txtNonAscii b) ↔ 0x80 ≤ b.toNat) ∧
    (decodeInput (.textByte b) = .ok (.tokWs b) ↔
      ((0x09 ≤ b.toNat ∧ b.toNat ≤ 0x0D) ∨ b.toNat = 0x20)) ∧
    (isAscii b = true ↔ b.toNat ≤ 0x7F)

/-! ### The step and the invariant -/

/-- A step runs the instruction that the oldest waiting input decodes to, on the state with that input
taken; with nothing waiting it runs IDLE (log entry 2); a packet byte in no row only takes its place at
its stage (log entry 3). -/
def Obligations.StepRunsTheDecodedInput : Prop :=
  (∀ (s : State) (inp : Input) (rest : List Input) (i : Instr),
    s.inputs = inp :: rest → decodeInput inp = .ok i →
      step s = exec i { s with inputs := rest }) ∧
  (∀ s : State, s.inputs = [] → step s = exec .idle s) ∧
  (∀ (s : State) (b : Byte) (rest : List Input),
    s.inputs = .scanByte b :: rest → decodeInput (.scanByte b) = .error (.scan b) →
      configOk s.cfg = true →
      step s = .next { beginStep s with
        inputs := rest, scan := { s.scan with off := s.scan.off + 1 } }) ∧
  (∀ (s : State) (b : Byte) (rest : List Input),
    s.inputs = .textByte b :: rest → decodeInput (.textByte b) = .error (.text b) →
      configOk s.cfg = true →
      step s = .next { beginStep s with
        inputs := rest, toks := { s.toks with cur := s.toks.cur ++ [b] } })

/-- The reset state of R118 meets the invariant under every admitted configuration: RESET leads to it from
any state, and `State.reset` is it under TCFG (that reset carries TCFG with `CAPACITY = 64` is log
entry 1). -/
def Obligations.ResetStateMeetsTheInvariant : Prop :=
  (∀ s : State, configOk s.cfg = true →
    BlockInv (resetState s) ∧ exec .reset s = .next (resetState s)) ∧
  BlockInv State.reset ∧ ∀ s : State, s.cfg = State.reset.cfg → s.inputs = [] →
    resetState s = State.reset

/-- Every step keeps the invariant, from any state that meets it. -/
def Obligations.StepKeepsTheInvariant : Prop :=
  ∀ s t : State, BlockInv s → step s = .next t → BlockInv t

/-- R68: no operation stops: each has a successor, and so does every step. -/
def Obligations.EveryOperationHasASuccessor : Prop :=
  ∀ s : State, BlockInv s →
    (∀ i : Instr, ∃ t, exec i s = .next t) ∧ ∃ t, step s = .next t

/-- No step changes the configuration (R40, R118), and each takes exactly the oldest input. That State
holds both is the model's choice (log entries 1 and 2). -/
def Obligations.StepKeepsTheConfiguration : Prop :=
  ∀ s t : State, step s = .next t → t.cfg = s.cfg ∧ t.inputs = s.inputs.drop 1

/-- The configuration check is the constraints of R8 to R12, which R120 repeats, with one of the model's
own: `ANN_EXTRA` lists no bit twice, and an extra name is written as its bit (log entry 7). A
configuration that breaks one is refused by every instruction: that the refusal of R120 falls on every
instruction is read from the spec (log entry 6). -/
def Obligations.BrokenConfigurationIsRefused : Prop :=
  (∀ c : Config, configOk c = true ↔ ConfigConstraint c) ∧
  (∀ (s : State) (i : Instr), ¬ConfigConstraint s.cfg → exec i s = .refused .badConfiguration) ∧
  (∀ bit : Nat, annBit (.extra bit) = bit)

/-! ### RESET and the framer -/

/-- R117, R118: every word with RST set is RESET, which leaves every element of R17 at its reset value
and the configuration as it was; `State.reset` has the same values. -/
def Obligations.ResetLeavesTheResetState : Prop :=
  (∀ w : InputWord, w.getLsbD 9 = true → decodeWord w = .reset) ∧
  (∀ s : State, configOk s.cfg = true →
    ∃ t, exec .reset s = .next t ∧
      t.len = 0 ∧ (∀ i, memRead t.buf i = none) ∧ t.meas = none ∧ t.measValid = false ∧ Quiet t ∧
      t.cfg = s.cfg) ∧
  (State.reset.len = 0 ∧ (∀ i, memRead State.reset.buf i = none) ∧ State.reset.meas = none ∧
    State.reset.measValid = false ∧ Quiet State.reset)

/-- R63: a word with neither RST nor IN_VALID is IDLE, which clears the strobes and the error outputs and
changes nothing else. -/
def Obligations.IdleOnlyClearsTheStrobes : Prop :=
  (∀ w : InputWord, w.getLsbD 9 = false → w.getLsbD 8 = false → decodeWord w = .idle) ∧
  (∀ s : State, configOk s.cfg = true →
    ∃ t, exec .idle s = .next t ∧ Quiet t ∧ SameOutside s t ∧
      t.buf = s.buf ∧ t.len = s.len ∧ t.meas = s.meas ∧ t.measValid = s.measValid)

/-- R61: the word `01bbbbbbbb` with `b ≠ 0x0D` is FEED_DATA, which writes its byte at LEN; then it raises
LEN by one, or discards at the capacity boundary. Everything else stays. -/
def Obligations.FeedDataKeepsOrDiscards : Prop :=
  ∀ (s : State) (b : Byte), configOk s.cfg = true → s.len < s.cfg.capacity → isTerm b = false →
    decodeWord (feedWord b) = .feedData b ∧
    ∃ t, exec (.feedData b) s = .next t ∧
      WroteCell s t s.len b ∧ SameOutside s t ∧ t.meas = s.meas ∧ t.measValid = s.measValid ∧
      t.measStb = false ∧ t.errStb = false ∧ t.errCode = 0#3 ∧ t.errSub = false ∧
      (if s.len = s.cfg.capacity - 1 then t.len = 0 ∧ t.ovfStb = true
       else t.len = s.len + 1 ∧ t.len ≤ s.cfg.capacity - 1 ∧ t.ovfStb = false)

/-- R62: the word `0x10D` is FEED_TERM, which writes the terminator at LEN; at the capacity boundary it is discarded with no
decode; otherwise `BUF[0:LEN')` is decoded, LEN becomes 0 whatever the result, and the packet is
published or its error reported. A packet whose length is not 43 reports InvalidLength, byte count. -/
def Obligations.FeedTermCompletesOrDiscards : Prop :=
  decodeWord 0x10D#10 = .feedTerm ∧
  ∀ (s : State) (q : List Byte), configOk s.cfg = true → s.len < s.cfg.capacity →
    HoldsPacket s q →
    ∃ t, exec .feedTerm s = .next t ∧
      WroteCell s t s.len 0x0D#8 ∧ SameOutside s t ∧ t.len = 0 ∧
      (if s.len = s.cfg.capacity - 1 then
        t.ovfStb = true ∧ t.measStb = false ∧ t.errStb = false ∧ t.errCode = 0#3 ∧
          t.errSub = false ∧ t.meas = s.meas ∧ t.measValid = s.measValid
       else
        (∀ m, decode s.cfg (q ++ [0x0D#8]) = .ok m →
          t.meas = some m ∧ t.measValid = true ∧ t.measStb = true ∧ t.errStb = false ∧
            t.errCode = 0#3 ∧ t.errSub = false ∧ t.ovfStb = false) ∧
        (∀ k, decode s.cfg (q ++ [0x0D#8]) = .error k →
          t.meas = s.meas ∧ t.measValid = s.measValid ∧ Reports k t) ∧
        (s.len ≠ 42 → Reports .lengthBytes t))

/-- R107, R121: a FEED at the capacity boundary, a terminator too, empties the framer with OVF_STB, no
error and no decode; the packet that follows frames from empty, its first byte at index 0. -/
def Obligations.FeedAtTheBoundaryIsDroppedWithoutError : Prop :=
  ∀ (s : State) (i : Instr), configOk s.cfg = true → s.len = s.cfg.capacity - 1 →
    (i = .feedTerm ∨ ∃ b, i = .feedData b) →
    ∃ t, exec i s = .next t ∧ t.len = 0 ∧ t.ovfStb = true ∧ t.measStb = false ∧
      t.errStb = false ∧ t.errCode = 0#3 ∧ t.errSub = false ∧
      t.meas = s.meas ∧ t.measValid = s.measValid ∧
      ∀ b, isTerm b = false →
        ∃ u, exec (.feedData b) t = .next u ∧ u.len = 1 ∧ memRead u.buf 0 = some b

/-- R19: a FEED writes exactly one cell, at index LEN, also when it discards; no other operation writes
BUF but RESET, which empties it. -/
def Obligations.FeedWritesExactlyOneCell : Prop :=
  (∀ (s t : State) (i : Instr), exec i s = .next t →
    match i with
    | .feedData b => WroteCell s t s.len b
    | .feedTerm => WroteCell s t s.len 0x0D#8
    | .reset => ∀ a, memRead t.buf a = none
    | _ => t.buf = s.buf) ∧
  (∀ a, memRead State.reset.buf a = none)

/-- R20: LEN stays in `0..CAPACITY − 1`, in `ceil(log2(CAPACITY))` bits; it is the index of the next write
and counts the bytes of the partial packet, set to 0 before it could reach CAPACITY; only FEED steps and
RESET write it. -/
def Obligations.LenStaysInRange : Prop :=
  (∀ (s t : State) (i : Instr), exec i s = .next t → s.len < s.cfg.capacity →
    t.len ≤ s.cfg.capacity - 1 ∧ t.len < 2 ^ Nat.clog 2 s.cfg.capacity ∧
    (i = .reset → t.len = 0) ∧
    (i = .feedTerm → memRead t.buf s.len = some 0x0D#8 ∧ t.len = 0) ∧
    (∀ b, i = .feedData b → memRead t.buf s.len = some b ∧
      t.len = if s.len = s.cfg.capacity - 1 then 0 else s.len + 1) ∧
    (i ≠ .reset → i ≠ .feedTerm → (∀ b, i ≠ .feedData b) → t.len = s.len)) ∧
  State.reset.len = 0

/-- R8: CAPACITY is at least 15; a packet longer than `CAPACITY − 1` bytes is never decoded, to a record or
to an error; and under a capacity below 44 no decode through the framer succeeds. -/
def Obligations.PublicationNeedsCapacity44 : Prop :=
  (∀ c : Config, configOk c = true → 15 ≤ c.capacity) ∧
  (∀ (s t : State) (i : Instr), exec i s = .next t → s.len < s.cfg.capacity →
    (t.measStb = true ∨ t.errStb = true → s.len + 1 ≤ s.cfg.capacity - 1) ∧
    (t.measStb = true → 44 ≤ s.cfg.capacity ∧ s.len = 42))

/-! ### Publication and errors -/

/-- R87: a FEED_TERM below the boundary whose packet decodes publishes that record, and nothing else
publishes; RESET aside, MEAS and MEAS_VALID otherwise keep their values. -/
def Obligations.OnlyASuccessfulDecodePublishes : Prop :=
  ∀ (s t : State) (i : Instr), exec i s = .next t →
    (t.measStb = true → i = .feedTerm ∧ t.measValid = true ∧
      ∃ p m, bufRead (s.len + 1) t = .ok p ∧ decode s.cfg p = .ok m ∧ t.meas = some m) ∧
    (∀ p m, i = .feedTerm → s.len ≠ s.cfg.capacity - 1 → bufRead (s.len + 1) t = .ok p →
      decode s.cfg p = .ok m → t.meas = some m ∧ t.measValid = true ∧ t.measStb = true) ∧
    (t.measStb = false → i ≠ .reset → t.meas = s.meas ∧ t.measValid = s.measValid)

/-- R23: after any input words without a RESET, from a state with MEAS_VALID clear, MEAS_VALID is 1
exactly when one of their steps published; RESET clears it and nothing else does; and a decode error
never changes it. -/
def Obligations.MeasValidMeansPublishedSinceReset : Prop :=
  State.reset.measValid = false ∧
  (∀ (ws : List InputWord) (s t : State), s.measValid = false →
    (∀ w ∈ ws, isResetWord w = false) → runWords ws s = some t →
      (t.measValid = true ↔ ∃ m, Event.published m ∈ eventsOf ws s)) ∧
  (∀ s t : State, exec .reset s = .next t → t.measValid = false) ∧
  (∀ (s t : State) (i : Instr), exec i s = .next t → s.measValid = true → i ≠ .reset →
    t.measValid = true) ∧
  (∀ (s t : State) (i : Instr), exec i s = .next t → t.errStb = true → t.measValid = s.measValid)

/-- R108: an error event is one failed decode's, in a FEED_TERM, and every failed decode gives one; it sets
the error outputs, LEN is 0, and MEAS, MEAS_VALID and the rest stay as they were. -/
def Obligations.ErrorEventKeepsTheRecord : Prop :=
  ∀ (s t : State) (i : Instr), exec i s = .next t →
    (t.errStb = true →
      i = .feedTerm ∧ t.meas = s.meas ∧ t.measValid = s.measValid ∧ t.len = 0 ∧ SameOutside s t ∧
        WroteCell s t s.len 0x0D#8 ∧
        ∃ p k, bufRead (s.len + 1) t = .ok p ∧ decode s.cfg p = .error k ∧ Reports k t) ∧
    (∀ p k, i = .feedTerm → s.len ≠ s.cfg.capacity - 1 → bufRead (s.len + 1) t = .ok p →
      decode s.cfg p = .error k → Reports k t)

/-- R26: with ERR_STB the error outputs hold the kind of this step's failed decode, and without it both
are 0; they are 0 after reset. -/
def Obligations.ErrorOutputsHoldTheErrorKind : Prop :=
  (∀ (s t : State) (i : Instr), exec i s = .next t →
    (t.errStb = false → t.errCode = 0#3 ∧ t.errSub = false) ∧
    (t.errStb = true → ∃ p k, bufRead (s.len + 1) t = .ok p ∧ decode s.cfg p = .error k ∧
      t.errCode = errCode k ∧ t.errSub = errSub k)) ∧
  State.reset.errCode = 0#3 ∧ State.reset.errSub = false

/-- R54: the codes of the error kinds, and that no other code is ever driven. -/
def Obligations.ErrorCodesAreTheTable : Prop :=
  (errCode .lengthBytes = 1#3 ∧ errSub .lengthBytes = false) ∧
  (errCode .lengthTokens = 1#3 ∧ errSub .lengthTokens = true) ∧
  (errCode .missingTerminator = 2#3 ∧ errSub .missingTerminator = false) ∧
  (errCode .encoding = 3#3 ∧ errSub .encoding = false) ∧
  (errCode .malformedValue = 4#3 ∧ errSub .malformedValue = false) ∧
  (∀ (s t : State) (i : Instr), exec i s = .next t →
    t.errCode.toNat ≤ 4 ∧ (t.errCode = 0#3 ↔ t.errStb = false) ∧
      (t.errSub = true → t.errCode = 1#3))

/-- At most one of publication, error and overflow happens in a step, and only a FEED step has one
(R25, R110; the spec derives the exclusion). -/
def Obligations.AtMostOneEventInAStep : Prop :=
  ∀ (s t : State) (i : Instr), exec i s = .next t →
    StrobesExclusive t ∧
    (i ≠ .feedTerm → t.measStb = false ∧ t.errStb = false) ∧
    (i ≠ .feedTerm → (∀ b, i ≠ .feedData b) → t.ovfStb = false)

/-- Through the framer MissingTerminator is never reported and every published record has
`tidy_len = 42` (the spec derives this, `41_decoder.md` §5). -/
def Obligations.FramerPathHasOneTerminator : Prop :=
  ∀ s t : State, BlockInv s → step s = .next t →
    t.errCode ≠ errCode .missingTerminator ∧
    ∀ m, t.measStb = true → t.meas = some m → m.tidyLen = 42 ∧ m.raw.getD 42 0#8 = 0x0D#8

/-- Inserting or removing IDLE words changes no event and no order of events (the spec derives this,
`40_framer.md` §3). -/
def Obligations.IdleWordsChangeNoEvents : Prop :=
  ∀ (ws : List InputWord) (s : State),
    eventsOf ws s = eventsOf (ws.filter fun w => !isIdleWord w) s

/-- The block refines the framer on lists: from any state whose buffer holds the partial packet `q`, the
events of any input words are those of the list framer, in the same order. -/
def Obligations.BlockRefinesTheListFramer : Prop :=
  ∀ (ws : List InputWord) (s : State) (q : List Byte),
    configOk s.cfg = true → s.len < s.cfg.capacity → HoldsPacket s q →
    eventsOf ws s = listFramer s.cfg q ws

/-- R33: bytes fed from `LEN = 0` reach the decoder in arrival order, the earliest at offset 0: the
terminator after them reports the decode of exactly those bytes and itself. -/
def Obligations.FedBytesAreDecodedInArrivalOrder : Prop :=
  ∀ (s : State) (bs : List Byte), configOk s.cfg = true → s.len = 0 →
    (∀ b ∈ bs, isTerm b = false) → bs.length + 2 ≤ s.cfg.capacity →
    eventsOf (bs.map feedWord ++ [0x10D#10]) s
      = [decodeEvent (decode s.cfg (bs ++ [0x0D#8]))] ∧
    ∃ t, runWords (bs.map feedWord) s = some t ∧ t.len = bs.length ∧
      ∀ i, i < bs.length → memRead t.buf i = bs[i]?

/-! ### The packet decoder -/

/-- R71, R72: a packet not of 43 bytes fails with InvalidLength, byte count; 43 bytes whose last is not
the terminator fail with MissingTerminator. -/
def Obligations.LengthThenTerminatorAreChecked : Prop :=
  ∀ (c : Config) (p : List Byte),
    (decode c p = .error .lengthBytes ↔ p.length ≠ 43) ∧
    (p.length = 43 → (decode c p = .error .missingTerminator ↔ p[42]? ≠ some 0x0D#8))

/-- R73: the first terminator ends the span: `k` is its offset and the tidy packet is what stands before
it. -/
def Obligations.FirstTerminatorEndsTheTidyPacket : Prop :=
  ∀ p : List Byte, p.length = 43 → p[42]? = some 0x0D#8 →
    ∃ k, k ≤ 42 ∧ p[k]? = some 0x0D#8 ∧ (∀ i, i < k → p[i]? ≠ some 0x0D#8) ∧
      tidyLength p = k ∧ tidyOf p = p.take k

/-- R74, R48: a byte of the tidy packet above 0x7F, and nothing else, fails with EncodingError. -/
def Obligations.NonAsciiInTheSpanFails : Prop :=
  (∀ b : Byte, b.getLsbD 7 = false ↔ b.toNat ≤ 0x7F) ∧
  ∀ (c : Config) (p : List Byte), p.length = 43 → p[42]? = some 0x0D#8 →
    (decode c p = .error .encoding ↔
      ∃ i b, i < tidyLength p ∧ p[i]? = some b ∧ 0x80 ≤ b.toNat)

/-- R75: the tokens are the maximal runs of bytes not in WS, in order of offset: leading white space is
passed over, a run that white space or the end of the text ends is one token, and the tokens of the rest
follow; white space alone has none. -/
def Obligations.TokensAreTheMaximalRuns : Prop :=
  (∀ ws : List Byte, (∀ b ∈ ws, isWs b = true) → tokenize ws = []) ∧
  (∀ ws run rest : List Byte, (∀ b ∈ ws, isWs b = true) → run ≠ [] →
    (∀ b ∈ run, isWs b = false) → (∀ b, rest.head? = some b → isWs b = true) →
    tokenize (ws ++ run ++ rest) = run :: tokenize rest)

/-- R76: with fewer than two tokens, and no earlier failure, the packet fails with InvalidLength, token
layout. -/
def Obligations.FewerThanTwoTokensFails : Prop :=
  ∀ (c : Config) (p : List Byte), p.length = 43 → p[42]? = some 0x0D#8 →
    (∀ i b, i < tidyLength p → p[i]? = some b → b.toNat ≤ 0x7F) →
    (decode c p = .error .lengthTokens ↔ (tokenize (tidyOf p)).length < 2)

/-- R77: token 1, and no other token, is the primary value, with a mantissa of `W_MANT` bits and a scale of
0 to 39; a token that does not parse is MalformedValue. -/
def Obligations.SecondTokenIsThePrimaryValue : Prop :=
  ∀ (c : Config) (p : List Byte) (t0 t1 : List Byte) (ts : List (List Byte)),
    p.length = 43 → p[42]? = some 0x0D#8 →
    (∀ i b, i < tidyLength p → p[i]? = some b → b.toNat ≤ 0x7F) →
    tokenize (tidyOf p) = t0 :: t1 :: ts →
    (parse c.wMant t1 = none → decode c p = .error .malformedValue) ∧
    (∀ mant scale, parse c.wMant t1 = some (mant, scale) →
      ∃ m, decode c p = .ok m ∧ m.mant = mant ∧ m.scale = scale ∧ scale ≤ 39 ∧
        -(2 ^ (c.wMant - 1) : Int) ≤ mant ∧ mant < (2 ^ (c.wMant - 1) : Int))

/-- R88: the error is the first failing stage's, and a packet that passes every check is decoded. -/
def Obligations.FirstFailingStageDecidesTheError : Prop :=
  ∀ (c : Config) (p : List Byte),
    let lengthFails := p.length ≠ 43
    let termFails := p.getD 42 0#8 ≠ 0x0D#8
    let asciiFails := ∃ i b, i < tidyLength p ∧ p[i]? = some b ∧ 0x80 ≤ b.toNat
    let tokensFail := (tokenize (tidyOf p)).length < 2
    let valueFails := parse c.wMant ((tokenize (tidyOf p)).getD 1 []) = none
    (lengthFails → decode c p = .error .lengthBytes) ∧
    (¬lengthFails → termFails → decode c p = .error .missingTerminator) ∧
    (¬lengthFails → ¬termFails → asciiFails → decode c p = .error .encoding) ∧
    (¬lengthFails → ¬termFails → ¬asciiFails → tokensFail →
      decode c p = .error .lengthTokens) ∧
    (¬lengthFails → ¬termFails → ¬asciiFails → ¬tokensFail → valueFails →
      decode c p = .error .malformedValue) ∧
    (¬lengthFails → ¬termFails → ¬asciiFails → ¬tokensFail → ¬valueFails →
      ∃ m, decode c p = .ok m)

/-- R78: an entry tests true exactly when every bit of its mask is set in the raw packet's byte. -/
def Obligations.FieldTestNeedsEveryMaskBit : Prop :=
  ∀ (p : List Byte) (e : FieldEntry) (b : Byte), p[e.offset]? = some b →
    (fieldTest p e = true ↔ ∀ j, j < 8 → e.mask.getLsbD j = true → b.getLsbD j = true)

/-- R80: the prefix is the value of the last true PREFIX entry in list order, or NONE if there is
none. -/
def Obligations.PrefixIsTheLastTrueEntry : Prop :=
  ∀ (c : Config) (p : List Byte) (m : Measurement), decode c p = .ok m →
    ((∀ e ∈ c.fieldMap, ¬WritesPfx p e) → m.pfx = .none) ∧
    ∀ e, IsLastWriter c.fieldMap (WritesPfx p) e →
      (e.target = .pfx .nano → m.pfx = .nano) ∧ (e.target = .pfx .micro → m.pfx = .micro) ∧
      (e.target = .pfx .milli → m.pfx = .milli) ∧ (e.target = .pfx .kilo → m.pfx = .kilo) ∧
      (e.target = .pfx .mega → m.pfx = .mega)

/-- R79, R81, R82: the unit is that of the last true UNIT entry, or NONE; where that entry is the 'S'
glyph, it is SECOND if a TYPE(PW) entry tests true, whatever the resolved type, and SIEMENS otherwise,
never S_UNKNOWN. -/
def Obligations.UnitIsTheLastTrueEntry : Prop :=
  ∀ (c : Config) (p : List Byte) (m : Measurement), decode c p = .ok m →
    ((∀ e ∈ c.fieldMap, ¬WritesUnit p e) → m.unit = .none) ∧
    (∀ e, IsLastWriter c.fieldMap (WritesUnit p) e →
      (e.target = .unit .hertz → m.unit = .hertz) ∧ (e.target = .unit .degF → m.unit = .degF) ∧
      (e.target = .unit .degC → m.unit = .degC) ∧ (e.target = .unit .ohm → m.unit = .ohm) ∧
      (e.target = .unit .ampere → m.unit = .ampere) ∧ (e.target = .unit .farad → m.unit = .farad) ∧
      (e.target = .unit .volt → m.unit = .volt)) ∧
    (∀ e, IsLastWriter c.fieldMap (WritesUnit p) e → e.target = .unit .sGlyph →
      ((∃ w ∈ c.fieldMap, w.target = .type .pw ∧ fieldTest p w = true) → m.unit = .second) ∧
      (¬(∃ w ∈ c.fieldMap, w.target = .type .pw ∧ fieldTest p w = true) → m.unit = .siemens)) ∧
    m.unit ≠ .sUnknown

/-- R83: the type is the value of the last true TYPE entry in list order, or NONE. -/
def Obligations.TypeIsTheLastTrueEntry : Prop :=
  ∀ (c : Config) (p : List Byte) (m : Measurement), decode c p = .ok m →
    ((∀ e ∈ c.fieldMap, ¬WritesType p e) → m.mtype = .none) ∧
    ∀ e, IsLastWriter c.fieldMap (WritesType p) e →
      (e.target = .type .ac → m.mtype = .ac) ∧ (e.target = .type .dc → m.mtype = .dc) ∧
      (e.target = .type .pw → m.mtype = .pw)

/-- R84: the bar graph is present exactly when its active test is true, and its value is the sum of the
weights of the set bits, in 0..16383. -/
def Obligations.BarGraphIsTheWeightedSum : Prop :=
  ∀ (c : Config) (p : List Byte) (m : Measurement), configOk c = true → decode c p = .ok m →
    (m.bar.isSome = true ↔ maskTest p c.barActive.offset c.barActive.mask = true) ∧
    ∀ v, m.bar = some v → v.val ≤ 16383 ∧
      v.val = (c.barMap.map fun e =>
        if (p.getD e.offset 0#8).getLsbD e.bit then e.weight else 0).sum

/-- R85, R53: the bit of each of the 19 names; each annunciator bit is the OR of the tests of the entries
with its name; a reserved bit that `ANN_EXTRA` does not name is 0. -/
def Obligations.AnnunciatorBitIsTheOrOfItsEntries : Prop :=
  (annBit .hold = 0 ∧ annBit .rel = 1 ∧ annBit .autoOff = 2 ∧ annBit .lowBat = 3 ∧
    annBit .continuity = 4 ∧ annBit .range = 5 ∧ annBit .duty = 6 ∧ annBit .max = 7 ∧
    annBit .min = 8 ∧ annBit .peak = 9 ∧ annBit .store = 10 ∧ annBit .recall = 11 ∧
    annBit .goNogo = 12 ∧ annBit .positive = 13 ∧ annBit .negative = 14 ∧
    annBit .reference = 15 ∧ annBit .percentPolarity = 16 ∧ annBit .rs232c = 17 ∧
    annBit .sLower = 18) ∧
  ∀ (c : Config) (p : List Byte) (m : Measurement), configOk c = true → decode c p = .ok m →
    (∀ i, i < 32 → (m.ann.getLsbD i = true ↔
      ∃ e ∈ c.fieldMap, ∃ a, e.target = .ann a ∧ annBit a = i ∧ fieldTest p e = true)) ∧
    (∀ i, 19 ≤ i → i < 32 → i ∉ c.annExtra → m.ann.getLsbD i = false)

/-- R86: the record is built from the packet and the configuration alone: two FEED_TERM steps on the
same packet publish the same record, whatever MEAS held before; `raw` is that packet and `tidy_len` the
offset of its first terminator. -/
def Obligations.PublishedRecordIgnoresThePreviousOne : Prop :=
  ∀ s s' t t' : State, s.cfg = s'.cfg → s.buf = s'.buf → s.len = s'.len →
    exec .feedTerm s = .next t → exec .feedTerm s' = .next t' → t.measStb = true →
    t'.measStb = true ∧ t.meas = t'.meas ∧
    ∀ m, t.meas = some m → bufRead 43 t = .ok m.raw ∧ m.tidyLen = tidyLength m.raw

/-- The ranges of a decoded record's fields (`10_state.md` R22, whose scale bound the spec derives):
`mant` in `W_MANT` bits, `scale` at most 39, `tidy_len` at most 42, `raw` of 43 bytes. -/
def Obligations.DecodedRecordFieldsAreInRange : Prop :=
  ∀ (c : Config) (p : List Byte) (m : Measurement), configOk c = true → decode c p = .ok m →
    -(2 ^ (c.wMant - 1) : Int) ≤ m.mant ∧ m.mant < (2 ^ (c.wMant - 1) : Int) ∧
    m.scale ≤ 39 ∧ m.tidyLen ≤ 42 ∧ m.raw = p ∧ m.raw.length = 43

/-! ### The decimal parser and the units on their own -/

/-- PC_DIGIT in each phase, the transition of R94. That it is a step of its own on a parser in State, which
clears the strobes and leaves the block alone, is the model's choice (log entry 3). -/
def Obligations.DigitTransition : Prop :=
  ∀ (s : State) (d : BitVec 4), configOk s.cfg = true → d.toNat ≤ 9 →
    ∃ t, exec (.pcDigit d) s = .next t ∧ SameBlock s t ∧ Quiet t ∧ t.scan = s.scan ∧
      t.toks = s.toks ∧
      (s.parser.ph = .start ∨ s.parser.ph = .signed ∨ s.parser.ph = .int →
        t.parser = ⟨.int, s.parser.neg, true, 10 * s.parser.acc + d.toNat, s.parser.scale⟩) ∧
      (s.parser.ph = .frac →
        t.parser = ⟨.frac, s.parser.neg, true, 10 * s.parser.acc + d.toNat, s.parser.scale + 1⟩) ∧
      (s.parser.ph = .err → t.parser = s.parser)

/-- PC_POINT in each phase, the transition of R95. That it is a step of its own on a parser in State, which
clears the strobes and leaves the block alone, is the model's choice (log entry 3). -/
def Obligations.PointTransition : Prop :=
  ∀ s : State, configOk s.cfg = true →
    ∃ t, exec .pcPoint s = .next t ∧ SameBlock s t ∧ Quiet t ∧ t.scan = s.scan ∧
      t.toks = s.toks ∧
      (s.parser.ph = .start ∨ s.parser.ph = .signed ∨ s.parser.ph = .int →
        t.parser = { s.parser with ph := .frac }) ∧
      (s.parser.ph = .frac ∨ s.parser.ph = .err → t.parser = { s.parser with ph := .err })

/-- PC_PLUS and PC_MINUS in each phase, the transition of R96. That they are steps of their own on a parser
in State, which clear the strobes and leave the block alone, is the model's choice (log entry 3). -/
def Obligations.SignTransition : Prop :=
  ∀ (s : State) (i : Instr) (neg : Bool), configOk s.cfg = true →
    (i = .pcPlus ∧ neg = false) ∨ (i = .pcMinus ∧ neg = true) →
    ∃ t, exec i s = .next t ∧ SameBlock s t ∧ Quiet t ∧ t.scan = s.scan ∧ t.toks = s.toks ∧
      (s.parser.ph = .start → t.parser = { s.parser with neg := neg, ph := .signed }) ∧
      (s.parser.ph ≠ .start → t.parser = { s.parser with ph := .err })

/-- PC_OTHER, the transition of R97. That it is a step of its own on a parser in State, which clears the
strobes and leaves the block alone, is the model's choice (log entry 3). -/
def Obligations.OtherTransition : Prop :=
  ∀ (s : State) (c : Byte), configOk s.cfg = true →
    ∃ t, exec (.pcOther c) s = .next t ∧ SameBlock s t ∧ Quiet t ∧ t.scan = s.scan ∧
      t.toks = s.toks ∧ t.parser = { s.parser with ph := .err }

/-- TXT_TERM, TXT_NONASCII and TOK_WS on the registers of their stages (R73 to R75; that these stand in
State is log entry 3): the first terminator fixes the length of the tidy packet; a non-ASCII byte counts
only before it; white space ends an open token. -/
def Obligations.TextClassTransitions : Prop :=
  ∀ (s : State) (b : Byte), configOk s.cfg = true →
    (∃ t, exec .txtTerm s = .next t ∧ SameBlock s t ∧ Quiet t ∧ t.toks = s.toks ∧
      t.parser = s.parser ∧ t.scan.off = s.scan.off + 1 ∧ t.scan.nonAscii = s.scan.nonAscii ∧
      t.scan.tidyLen = (match s.scan.tidyLen with | none => some s.scan.off | some k => some k)) ∧
    (isAscii b = false →
      ∃ t, exec (.txtNonAscii b) s = .next t ∧ SameBlock s t ∧ Quiet t ∧ t.toks = s.toks ∧
        t.parser = s.parser ∧ t.scan.off = s.scan.off + 1 ∧ t.scan.tidyLen = s.scan.tidyLen ∧
        (t.scan.nonAscii = true ↔ s.scan.nonAscii = true ∨ s.scan.tidyLen = none)) ∧
    (isWs b = true →
      ∃ t, exec (.tokWs b) s = .next t ∧ SameBlock s t ∧ Quiet t ∧ t.scan = s.scan ∧
        t.parser = s.parser ∧ t.toks.cur = [] ∧
        t.toks.done = s.toks.done ++ (if s.toks.cur = [] then [] else [s.toks.cur]))

/-- The parser's initial values, the characters lowest offset first, the transition by the character's
class, and the ERR phase, which every class leaves as it is and which ends in FAIL (R93; that a row
acts on State's parser is log entry 3). -/
def Obligations.ErrorPhaseIsAbsorbing : Prop :=
  Parser.init = ⟨.start, false, false, 0, 0⟩ ∧
  (∀ (w : Nat) (c : Byte) (t : List Byte),
    parse w (c :: t) = parserResult w (t.foldl parserStep (parserStep Parser.init c))) ∧
  (∀ (s t : State) (c : Byte), exec (decodeChar c) s = .next t →
    t.parser = parserStep s.parser c) ∧
  (∀ (r : Parser) (t : List Byte) (w : Nat), r.ph = .err →
    (t.foldl parserStep r).ph = .err ∧ parserResult w (t.foldl parserStep r) = none)

/-- R92, R98: the parser accepts exactly the tokens of the grammar whose digit string, point removed, is
within the bound, and gives their value and the number of digits after the point. -/
def Obligations.ParserAcceptsExactlyTheGrammar : Prop :=
  ∀ (w : Nat) (t : List Byte) (mant : Int) (scale : Nat),
    parse w t = some (mant, scale) ↔
      ∃ sign int point frac, DecimalToken t sign int point frac ∧ scale = frac.length ∧
        (if sign = [0x2D#8] then
          decimalValue (int ++ frac) ≤ 2 ^ (w - 1) ∧ mant = -(decimalValue (int ++ frac) : Int)
         else
          decimalValue (int ++ frac) ≤ 2 ^ (w - 1) - 1 ∧
            mant = (decimalValue (int ++ frac) : Int))

/-- The pair a token parses to stands for the number the token writes: its digits before the point, plus
those after it divided by ten to their count, negated after '-' (R99). -/
def Obligations.PrimaryValueIsTheNumberWritten : Prop :=
  ∀ (w : Nat) (t : List Byte) (mant : Int) (scale : Nat), parse w t = some (mant, scale) →
    ∃ sign int point frac, DecimalToken t sign int point frac ∧
      primaryNumber mant scale
        = (if sign = [0x2D#8] then -1 else 1)
          * ((decimalValue int : ℚ) + (decimalValue frac : ℚ) / 10 ^ frac.length)

/-- The bounded accumulator with a sticky overflow bit gives the same results as the exact one, at every
admitted width (the spec derives this, `42_decimal_parser.md` §3; what the bounded register takes is log
entry 11). -/
def Obligations.BoundedAccumulatorGivesTheSameResults : Prop :=
  ∀ (w : Nat) (t : List Byte), 8 ≤ w → boundedParse w t = parse w t

/-- Stepping the characters of a token on the parser of State, from its initial values, computes
`parse` of the token and leaves the configuration, BUF, LEN, MEAS and MEAS_VALID as they were, with the
strobes 0 after any step (log entry 3). -/
def Obligations.SteppingATokenComputesParse : Prop :=
  ∀ (s : State) (t : List Byte) (rest : List Input), configOk s.cfg = true →
    s.parser = Parser.init → s.inputs = t.map Input.tokenChar ++ rest →
    ∃ u, Host.Core.run core t.length s = .next u ∧ u.inputs = rest ∧
      parserResult u.cfg.wMant u.parser = parse s.cfg.wMant t ∧ u.cfg = s.cfg ∧ u.buf = s.buf ∧
      u.len = s.len ∧ u.meas = s.meas ∧ u.measValid = s.measValid ∧ u.scan = s.scan ∧
      u.toks = s.toks ∧ (t ≠ [] → Quiet u)

/-- Stepping the bytes of a packet on the scan of State, and then those of its tidy packet on the
tokeniser, computes the length of the tidy packet, its ASCII check and its tokens, and leaves the
configuration, BUF, LEN, MEAS and MEAS_VALID as they were, with the strobes 0 (log entry 3). -/
def Obligations.SteppingAPacketComputesItsText : Prop :=
  ∀ (s : State) (p : List Byte), configOk s.cfg = true → s.scan = Scan.init →
    s.toks = Tokens.init → p.length = 43 → p[42]? = some 0x0D#8 →
    s.inputs = p.map Input.scanByte ++ (tidyOf p).map Input.textByte →
    ∃ u, Host.Core.run core (p.length + (tidyOf p).length) s = .next u ∧ u.inputs = [] ∧
      u.scan.tidyLen = some (tidyLength p) ∧ u.scan.nonAscii = nonAsciiInSpan p ∧
      tokFinish u.toks = tokenize (tidyOf p) ∧ u.cfg = s.cfg ∧ u.buf = s.buf ∧ u.len = s.len ∧
      u.meas = s.meas ∧ u.measValid = s.measValid ∧ u.parser = s.parser ∧ Quiet u

/-- The units of the decoder do not reach the block and the block's packets do not reach them (R30,
R70; that State holds the units' registers is log entry 3): a unit's row leaves the block's state alone,
a block's operation leaves the units alone but for RESET, which puts them at their initial values and
leaves the waiting inputs (log entry 2), and a block's result does not depend on them. -/
def Obligations.UnitsAndBlockAreSeparate : Prop :=
  (∀ s : State, configOk s.cfg = true →
    ∃ t, exec .reset s = .next t ∧ t.scan = Scan.init ∧ t.toks = Tokens.init ∧
      t.parser = Parser.init ∧ t.inputs = s.inputs) ∧
  (∀ (s t : State) (i : Instr), exec i s = .next t →
    (∃ w, encode i = .word w) → i ≠ .reset →
      t.scan = s.scan ∧ t.toks = s.toks ∧ t.parser = s.parser) ∧
  (∀ (s t : State) (i : Instr), exec i s = .next t →
    ¬(∃ w, encode i = .word w) → SameBlock s t ∧ Quiet t) ∧
  (∀ (s t : State) (r : Scan) (k : Tokens) (q : Parser) (i : Instr),
    (∃ w, encode i = .word w) → exec i s = .next t →
    ∃ u, exec i { s with scan := r, toks := k, parser := q } = .next u ∧
      u.buf = t.buf ∧ u.len = t.len ∧ u.meas = t.meas ∧ u.measValid = t.measValid ∧
      u.measStb = t.measStb ∧ u.errStb = t.errStb ∧ u.errCode = t.errCode ∧
      u.errSub = t.errSub ∧ u.ovfStb = t.ovfStb)

/-! ### Observers and stimulus -/

/-- R122, R24: while MEAS_VALID is 0 a read of MEAS faults; a valid MEAS of a state that meets the
invariant reads as the record it holds. -/
def Obligations.ReadBeforePublicationFaults : Prop :=
  (∀ s : State, s.measValid = false → readMeas s = .error .measUnwritten) ∧
  (∀ s : State, BlockInv s → s.measValid = true → ∃ m, s.meas = some m ∧ readMeas s = .ok m)

/-- R50 to R52 and R55: the codes of prefix, unit and type, every field of the packed words, and what reads
while MEAS_VALID is 0. -/
def Obligations.PackedWordsLayOutTheRecord : Prop :=
  (pfxCode .none = 0#3 ∧ pfxCode .nano = 1#3 ∧ pfxCode .micro = 2#3 ∧ pfxCode .milli = 3#3 ∧
    pfxCode .kilo = 4#3 ∧ pfxCode .mega = 5#3) ∧
  (unitCode .none = 0#4 ∧ unitCode .hertz = 1#4 ∧ unitCode .degF = 2#4 ∧ unitCode .degC = 3#4 ∧
    unitCode .ohm = 4#4 ∧ unitCode .ampere = 5#4 ∧ unitCode .farad = 6#4 ∧ unitCode .volt = 7#4 ∧
    unitCode .second = 8#4 ∧ unitCode .siemens = 9#4 ∧ unitCode .sUnknown = 10#4) ∧
  (mtypeCode .none = 0#2 ∧ mtypeCode .ac = 1#2 ∧ mtypeCode .dc = 2#2 ∧ mtypeCode .pw = 3#2) ∧
  (∀ (s : State) (m : Measurement), s.cfg.wMant ≤ 32 → s.measValid = true → s.meas = some m →
    m.scale < 64 → m.tidyLen < 64 → m.raw.length = 43 →
    (∃ w, readPackedWord s 0 = .ok w ∧ w.extractLsb' 0 3 = pfxCode m.pfx ∧
      w.extractLsb' 3 4 = unitCode m.unit ∧ w.extractLsb' 7 2 = mtypeCode m.mtype ∧
      w.getLsbD 9 = m.bar.isSome ∧
      (w.extractLsb' 10 14).toNat = (m.bar.map fun v => v.val).getD 0 ∧
      (w.extractLsb' 24 6).toNat = m.scale ∧ w.getLsbD 30 = true ∧ w.getLsbD 31 = false) ∧
    (∃ w, readPackedWord s 1 = .ok w ∧ w = BitVec.ofInt 32 m.mant ∧
      (-(2 ^ (s.cfg.wMant - 1) : Int) ≤ m.mant → m.mant < (2 ^ (s.cfg.wMant - 1) : Int) →
        w.toInt = m.mant)) ∧
    readPackedWord s 2 = .ok m.ann ∧
    (∃ w, readPackedWord s 3 = .ok w ∧ w.toNat = m.tidyLen) ∧
    (∀ j i, i < 4 → 4 * j + i < 44 →
      ∃ w, readPackedWord s (4 + j) = .ok w ∧
        w.extractLsb' (8 * i) 8 = m.raw.getD (4 * j + i) 0#8)) ∧
  (∀ s : State, s.cfg.wMant ≤ 32 → s.measValid = false →
    readPackedBit s 0 30 = .ok false ∧
    (∀ i, i ≤ 14 → readPackedWord s i = .error .measUnwritten) ∧
    (∀ i b, i ≤ 14 → b ≤ 31 → ¬(i = 0 ∧ b = 30) → readPackedBit s i b = .error .measUnwritten))

/-- R58: the words of the base statements decode to their operations, and the pseudo-statements expand
to them in order. -/
def Obligations.StimulusExpandsToItsOperations : Prop :=
  (expandStmt .reset).map decodeWord = [.reset] ∧
  (expandStmt .idle).map decodeWord = [.idle] ∧
  (∀ b : Byte, (expandStmt (.feed b)).map decodeWord
    = [if b.toNat = 0x0D then .feedTerm else .feedData b]) ∧
  (∀ bs : List Byte, expandStmt (.feeds bs) = bs.flatMap fun b => expandStmt (.feed b)) ∧
  (∀ bs : List Byte, expandStmt (.feedx bs) = bs.flatMap fun b => expandStmt (.feed b)) ∧
  (∀ (n : Nat) (b : Byte),
    expandStmt (.repeatFeed n b) = (List.replicate n (expandStmt (.feed b))).flatten) ∧
  (∀ n : Nat, expandStmt (.idles n) = (List.replicate n (expandStmt .idle)).flatten)
end

