-- ==== Sys2Proof/Laws/Text.lean ====
section
/-! SUPPORT. What the passage of bytes through the scan and the tokeniser comes to, said once for a whole
packet and a whole text. -/

namespace Sys2Proof.Machine

/-- After the first terminator nothing but the offset changes (R73, R74). -/
theorem scan_after_end (p : List Byte) (r : Scan) {k : Nat} (h : r.tidyLen = some k) :
    p.foldl scanStep r = ⟨r.off + p.length, some k, r.nonAscii⟩ := by
  induction p generalizing r with
  | nil => cases r; simp_all
  | cons b rest ih =>
    rw [List.foldl_cons, ih]
    · unfold scanStep scanTerm scanPlain scanNonAscii
      split
      · simp; omega
      · split <;> simp [h] <;> omega
    · unfold scanStep scanTerm scanPlain scanNonAscii
      split
      · simp [h]
      · split <;> simp [h]

/-- Before the first terminator the offset advances and any non-ASCII byte is noted. -/
theorem scan_before_end (p : List Byte) (r : Scan) (h : r.tidyLen = none)
    (hp : ∀ b ∈ p, isTerm b = false) :
    p.foldl scanStep r = ⟨r.off + p.length, none, r.nonAscii || p.any fun b => !isAscii b⟩ := by
  induction p generalizing r with
  | nil => cases r; simp_all
  | cons b rest ih =>
    have hb : isTerm b = false := hp b (by simp)
    rw [List.foldl_cons, ih _ _ fun c hc => hp c (by simp [hc])]
    · cases ha : isAscii b <;>
        simp [scanStep, hb, ha, scanPlain, scanNonAscii, h] <;> omega
    · cases ha : isAscii b <;> simp [scanStep, hb, ha, scanPlain, scanNonAscii, h]

/-- The scan of a packet whose first terminator stands after `q`: `k = |q|`, and a non-ASCII byte counts
exactly if it is in `q`. -/
theorem scanPacket_split (q rest : List Byte) (b : Byte) (hb : isTerm b = true)
    (hq : ∀ c ∈ q, isTerm c = false) :
    scanPacket (q ++ b :: rest)
      = ⟨q.length + rest.length + 1, some q.length, q.any fun c => !isAscii c⟩ := by
  unfold scanPacket
  rw [List.foldl_append, scan_before_end q Scan.init rfl hq, List.foldl_cons,
    scan_after_end (k := q.length)]
  · simp [scanStep, hb, scanTerm, Scan.init]; omega
  · simp [scanStep, hb, scanTerm, Scan.init]

/-- A list with a terminator in it splits at the first one. -/
theorem split_at_first_term {p : List Byte} (h : ∃ b ∈ p, isTerm b = true) :
    ∃ q b rest, p = q ++ b :: rest ∧ isTerm b = true ∧ ∀ c ∈ q, isTerm c = false := by
  induction p with
  | nil => simp at h
  | cons a l ih =>
    cases ha : isTerm a with
    | true => exact ⟨[], a, l, rfl, ha, by simp⟩
    | false =>
      obtain ⟨b, hb, ht⟩ := h
      have : b ∈ l := by
        rcases List.mem_cons.mp hb with rfl | hb
        · rw [ha] at ht; cases ht
        · exact hb
      obtain ⟨q, c, rest, rfl, hc, hq⟩ := ih ⟨b, this, ht⟩
      exact ⟨a :: q, c, rest, rfl, hc, by simpa [ha] using hq⟩

/-- Tokens already ended stay in front of those to come. -/
theorem tok_fold_done (l : List Byte) (d : List (List Byte)) (c : List Byte) :
    l.foldl tokStep ⟨d, c⟩
      = { done := d ++ (l.foldl tokStep ⟨[], c⟩).done, cur := (l.foldl tokStep ⟨[], c⟩).cur } := by
  induction l generalizing d c with
  | nil => simp
  | cons b rest ih =>
    simp only [List.foldl_cons, tokStep, tokBreak, tokChar]
    split
    · split
      · exact ih d c
      · simp only [List.nil_append]
        rw [ih (d ++ [c]) [], ih [c] []]
        simp
    · exact ih d (c ++ [b])

/-- The tokens of a text, from a tokeniser with ended tokens `d`. -/
theorem tokFinish_fold_done (l : List Byte) (d : List (List Byte)) (c : List Byte) :
    tokFinish (l.foldl tokStep ⟨d, c⟩) = d ++ tokFinish (l.foldl tokStep ⟨[], c⟩) := by
  rw [tok_fold_done]
  unfold tokFinish tokBreak
  dsimp only
  split <;> simp

/-- Token characters gather in the open token. -/
theorem tok_fold_run (run : List Byte) (d : List (List Byte)) (c : List Byte)
    (h : ∀ b ∈ run, isWs b = false) : run.foldl tokStep ⟨d, c⟩ = ⟨d, c ++ run⟩ := by
  induction run generalizing c with
  | nil => simp
  | cons b rest ih =>
    rw [List.foldl_cons]
    have : tokStep ⟨d, c⟩ b = ⟨d, c ++ [b]⟩ := by simp [tokStep, h b (by simp), tokChar]
    rw [this, ih _ fun x hx => h x (by simp [hx])]
    simp

/-- White space with no token open changes nothing. -/
theorem tok_fold_ws (ws : List Byte) (d : List (List Byte)) (h : ∀ b ∈ ws, isWs b = true) :
    ws.foldl tokStep ⟨d, []⟩ = ⟨d, []⟩ := by
  induction ws with
  | nil => rfl
  | cons b rest ih =>
    rw [List.foldl_cons]
    have : tokStep ⟨d, []⟩ b = ⟨d, []⟩ := by simp [tokStep, h b (by simp), tokBreak]
    rw [this, ih fun x hx => h x (by simp [hx])]

/-- Trailing white space changes no token. -/
theorem tokFinish_fold_ws (ws : List Byte) (t : Tokens) (h : ∀ b ∈ ws, isWs b = true) :
    tokFinish (ws.foldl tokStep t) = tokFinish t := by
  induction ws generalizing t with
  | nil => rfl
  | cons b rest ih =>
    rw [List.foldl_cons, ih _ fun x hx => h x (by simp [hx])]
    unfold tokFinish tokStep tokBreak
    simp only [h b (by simp), if_true]
    split <;> simp_all

/-- Every byte a `takeWhile` keeps has the property. -/
theorem all_takeWhile_ws (l : List Byte) : ∀ b ∈ l.takeWhile isWs, isWs b = true := by
  intro b hb
  exact List.mem_takeWhile_imp hb

/-- The trim is white space off both ends. -/
theorem trimText_split (l : List Byte) :
    ∃ w w', l = w ++ trimText l ++ w' ∧ (∀ b ∈ w, isWs b = true) ∧ ∀ b ∈ w', isWs b = true := by
  refine ⟨l.takeWhile isWs, ((l.dropWhile isWs).reverse.takeWhile isWs).reverse, ?_,
    all_takeWhile_ws l, ?_⟩
  · have h := List.takeWhile_append_dropWhile (p := isWs) (l := (l.dropWhile isWs).reverse)
    have h2 := congrArg List.reverse h
    rw [List.reverse_append, List.reverse_reverse] at h2
    rw [trimText, List.append_assoc, h2, List.takeWhile_append_dropWhile]
  · intro b hb
    exact all_takeWhile_ws _ b (by simpa using hb)

/-- Trimming first makes no difference to the tokens (R75's corner case). -/
theorem tokenize_eq_fold (l : List Byte) :
    tokenize l = tokFinish (l.foldl tokStep Tokens.init) := by
  obtain ⟨w, w', hl, hw, hw'⟩ := trimText_split l
  conv_rhs => rw [hl]
  rw [List.foldl_append, List.foldl_append, tokFinish_fold_ws _ _ hw', Tokens.init,
    tok_fold_ws w [] hw]
  rfl

end Sys2Proof.Machine
end

