-- ==== Sys2Proof/Laws/Decoder.lean ====
section
/-! SUPPORT. What `decode` can answer, said once: the shape of its record, the stages past the two checks
on the raw packet, and the packet split at its first terminator. -/

namespace Sys2Proof.Machine

/-- The terminator test is equality with 0x0D. -/
theorem isTerm_iff (b : Byte) : isTerm b = true ↔ b = 0x0D#8 := by simp [isTerm, termByte]

/-- A packet with the terminator at offset 42 splits at its first one: what stands before it is the
tidy packet, and the scan's three results follow (R73, R74). -/
theorem packet_split {p : List Byte} (hl : p.length = 43) (ht : p[42]? = some 0x0D#8) :
    ∃ q rest, p = q ++ 0x0D#8 :: rest ∧ (∀ c ∈ q, isTerm c = false) ∧ q.length ≤ 42 ∧
      scanPacket p = ⟨43, some q.length, q.any fun c => !isAscii c⟩ ∧
      tidyLength p = q.length ∧ tidyOf p = q ∧
      nonAsciiInSpan p = q.any fun c => !isAscii c := by
  obtain ⟨q, b, rest, rfl, hb, hq⟩ :=
    split_at_first_term (p := p) ⟨0x0D#8, List.mem_of_getElem? ht, rfl⟩
  obtain rfl := (isTerm_iff b).mp hb
  have hs := scanPacket_split q rest _ hb hq
  have hlen : q.length + rest.length + 1 = 43 := by simpa [Nat.add_assoc] using hl
  rw [hlen] at hs
  exact ⟨q, rest, rfl, hq, by omega, hs, by simp [tidyLength, hs], by simp [tidyOf, tidyLength, hs],
    by simp [nonAsciiInSpan, hs]⟩

/-- The value stage: fewer than two tokens, or a second token that does not parse, or its value
(R76, R77). -/
theorem primaryValue_cases (w : Nat) (toks : List (List Byte)) :
    (toks.length < 2 ∧ primaryValue w toks = .error .lengthTokens) ∨
    (∃ t0 t1 ts, toks = t0 :: t1 :: ts ∧
      ((parse w t1 = none ∧ primaryValue w toks = .error .malformedValue) ∨
        ∃ v, parse w t1 = some v ∧ primaryValue w toks = .ok v)) := by
  match toks with
  | [] => left; simp [primaryValue]
  | [_] => left; simp [primaryValue]
  | a :: b :: c =>
    right
    refine ⟨a, b, c, rfl, ?_⟩
    cases h : parse w b <;> simp [primaryValue, h]

/-- A record comes from a packet of 43 bytes that ends in the terminator and passes the ASCII check,
and from its second token's value (R70, R86). -/
theorem decode_eq_ok {c : Config} {p : List Byte} {m : Measurement} (h : decode c p = .ok m) :
    p.length = 43 ∧ p[42]? = some 0x0D#8 ∧ nonAsciiInSpan p = false ∧
      ∃ t0 t1 ts v, tokenize (tidyOf p) = t0 :: t1 :: ts ∧ parse c.wMant t1 = some v ∧
        m = assemble c p v := by
  unfold decode at h
  split at h
  · cases h
  · rename_i hl
    have hl : p.length = 43 := by simpa [pktLen] using hl
    split at h
    · cases h
    · rename_i ht
      have ht : p[42]? = some 0x0D#8 := by
        rw [not_not, List.getD_eq_getElem?_getD, List.getElem?_eq_getElem (by omega)] at ht
        rw [List.getElem?_eq_getElem (by omega)]
        simpa [termByte] using ht
      split at h
      · cases h
      · rename_i ha
        rcases primaryValue_cases c.wMant (tokenize (tidyOf p)) with
          ⟨-, e⟩ | ⟨t0, t1, ts, e1, ⟨-, e⟩ | ⟨v, e2, e⟩⟩
        · rw [e] at h; cases h
        · rw [e] at h; cases h
        · rw [e] at h
          cases h
          exact ⟨hl, ht, by simpa using ha, t0, t1, ts, v, e1, e2, rfl⟩

/-- Past the checks on the raw packet, the ASCII check and the value stage decide (R74 to R77). -/
theorem decode_of_terminated {c : Config} {p : List Byte} (hl : p.length = 43)
    (ht : p[42]? = some 0x0D#8) :
    decode c p
      = if nonAsciiInSpan p then .error .encoding
        else
          match primaryValue c.wMant (tokenize (tidyOf p)) with
          | .ok v => .ok (assemble c p v)
          | .error k => .error k := by
  have h42 : p.getD 42 0#8 = termByte := by
    rw [List.getD_eq_getElem?_getD, ht]; rfl
  unfold decode
  exact (if_neg (by simp [hl, pktLen])).trans (if_neg (by rw [h42]; simp))

end Sys2Proof.Machine
end

