-- ==== Sys2Proof/Laws/State.lean ====
section
/-! SUPPORT. What each named update leaves in each field of the state, one lemma per field, by
unfolding. No later proof unfolds a record update. -/

namespace Sys2Proof.Machine

@[simp] theorem beginStep_cfg (s : State) : (beginStep s).cfg = s.cfg := rfl
@[simp] theorem beginStep_inputs (s : State) : (beginStep s).inputs = s.inputs := rfl
@[simp] theorem beginStep_buf (s : State) : (beginStep s).buf = s.buf := rfl
@[simp] theorem beginStep_len (s : State) : (beginStep s).len = s.len := rfl
@[simp] theorem beginStep_meas (s : State) : (beginStep s).meas = s.meas := rfl
@[simp] theorem beginStep_measValid (s : State) : (beginStep s).measValid = s.measValid := rfl
@[simp] theorem beginStep_measStb (s : State) : (beginStep s).measStb = false := rfl
@[simp] theorem beginStep_errStb (s : State) : (beginStep s).errStb = false := rfl
@[simp] theorem beginStep_errCode (s : State) : (beginStep s).errCode = 0#3 := rfl
@[simp] theorem beginStep_errSub (s : State) : (beginStep s).errSub = false := rfl
@[simp] theorem beginStep_ovfStb (s : State) : (beginStep s).ovfStb = false := rfl
@[simp] theorem beginStep_scan (s : State) : (beginStep s).scan = s.scan := rfl
@[simp] theorem beginStep_toks (s : State) : (beginStep s).toks = s.toks := rfl
@[simp] theorem beginStep_parser (s : State) : (beginStep s).parser = s.parser := rfl

@[simp] theorem emitOvf_cfg (s : State) : (emitOvf s).cfg = s.cfg := rfl
@[simp] theorem emitOvf_inputs (s : State) : (emitOvf s).inputs = s.inputs := rfl
@[simp] theorem emitOvf_buf (s : State) : (emitOvf s).buf = s.buf := rfl
@[simp] theorem emitOvf_len (s : State) : (emitOvf s).len = s.len := rfl
@[simp] theorem emitOvf_meas (s : State) : (emitOvf s).meas = s.meas := rfl
@[simp] theorem emitOvf_measValid (s : State) : (emitOvf s).measValid = s.measValid := rfl
@[simp] theorem emitOvf_measStb (s : State) : (emitOvf s).measStb = s.measStb := rfl
@[simp] theorem emitOvf_errStb (s : State) : (emitOvf s).errStb = s.errStb := rfl
@[simp] theorem emitOvf_errCode (s : State) : (emitOvf s).errCode = s.errCode := rfl
@[simp] theorem emitOvf_errSub (s : State) : (emitOvf s).errSub = s.errSub := rfl
@[simp] theorem emitOvf_ovfStb (s : State) : (emitOvf s).ovfStb = true := rfl
@[simp] theorem emitOvf_scan (s : State) : (emitOvf s).scan = s.scan := rfl
@[simp] theorem emitOvf_toks (s : State) : (emitOvf s).toks = s.toks := rfl
@[simp] theorem emitOvf_parser (s : State) : (emitOvf s).parser = s.parser := rfl

@[simp] theorem emitErr_cfg (k : ErrKind) (s : State) : (emitErr k s).cfg = s.cfg := rfl
@[simp] theorem emitErr_inputs (k : ErrKind) (s : State) : (emitErr k s).inputs = s.inputs := rfl
@[simp] theorem emitErr_buf (k : ErrKind) (s : State) : (emitErr k s).buf = s.buf := rfl
@[simp] theorem emitErr_len (k : ErrKind) (s : State) : (emitErr k s).len = s.len := rfl
@[simp] theorem emitErr_meas (k : ErrKind) (s : State) : (emitErr k s).meas = s.meas := rfl
@[simp] theorem emitErr_measValid (k : ErrKind) (s : State) : (emitErr k s).measValid = s.measValid := rfl
@[simp] theorem emitErr_measStb (k : ErrKind) (s : State) : (emitErr k s).measStb = s.measStb := rfl
@[simp] theorem emitErr_errStb (k : ErrKind) (s : State) : (emitErr k s).errStb = true := rfl
@[simp] theorem emitErr_errCode (k : ErrKind) (s : State) : (emitErr k s).errCode = errCode k := rfl
@[simp] theorem emitErr_errSub (k : ErrKind) (s : State) : (emitErr k s).errSub = errSub k := rfl
@[simp] theorem emitErr_ovfStb (k : ErrKind) (s : State) : (emitErr k s).ovfStb = s.ovfStb := rfl
@[simp] theorem emitErr_scan (k : ErrKind) (s : State) : (emitErr k s).scan = s.scan := rfl
@[simp] theorem emitErr_toks (k : ErrKind) (s : State) : (emitErr k s).toks = s.toks := rfl
@[simp] theorem emitErr_parser (k : ErrKind) (s : State) : (emitErr k s).parser = s.parser := rfl

@[simp] theorem publish_cfg (m : Measurement) (s : State) : (publish m s).cfg = s.cfg := rfl
@[simp] theorem publish_inputs (m : Measurement) (s : State) : (publish m s).inputs = s.inputs := rfl
@[simp] theorem publish_buf (m : Measurement) (s : State) : (publish m s).buf = s.buf := rfl
@[simp] theorem publish_len (m : Measurement) (s : State) : (publish m s).len = s.len := rfl
@[simp] theorem publish_meas (m : Measurement) (s : State) : (publish m s).meas = some m := rfl
@[simp] theorem publish_measValid (m : Measurement) (s : State) : (publish m s).measValid = true := rfl
@[simp] theorem publish_measStb (m : Measurement) (s : State) : (publish m s).measStb = true := rfl
@[simp] theorem publish_errStb (m : Measurement) (s : State) : (publish m s).errStb = s.errStb := rfl
@[simp] theorem publish_errCode (m : Measurement) (s : State) : (publish m s).errCode = s.errCode := rfl
@[simp] theorem publish_errSub (m : Measurement) (s : State) : (publish m s).errSub = s.errSub := rfl
@[simp] theorem publish_ovfStb (m : Measurement) (s : State) : (publish m s).ovfStb = s.ovfStb := rfl
@[simp] theorem publish_scan (m : Measurement) (s : State) : (publish m s).scan = s.scan := rfl
@[simp] theorem publish_toks (m : Measurement) (s : State) : (publish m s).toks = s.toks := rfl
@[simp] theorem publish_parser (m : Measurement) (s : State) : (publish m s).parser = s.parser := rfl

@[simp] theorem setBuf_cfg (m : Memory) (s : State) : (setBuf m s).cfg = s.cfg := rfl
@[simp] theorem setBuf_inputs (m : Memory) (s : State) : (setBuf m s).inputs = s.inputs := rfl
@[simp] theorem setBuf_buf (m : Memory) (s : State) : (setBuf m s).buf = m := rfl
@[simp] theorem setBuf_len (m : Memory) (s : State) : (setBuf m s).len = s.len := rfl
@[simp] theorem setBuf_meas (m : Memory) (s : State) : (setBuf m s).meas = s.meas := rfl
@[simp] theorem setBuf_measValid (m : Memory) (s : State) : (setBuf m s).measValid = s.measValid := rfl
@[simp] theorem setBuf_measStb (m : Memory) (s : State) : (setBuf m s).measStb = s.measStb := rfl
@[simp] theorem setBuf_errStb (m : Memory) (s : State) : (setBuf m s).errStb = s.errStb := rfl
@[simp] theorem setBuf_errCode (m : Memory) (s : State) : (setBuf m s).errCode = s.errCode := rfl
@[simp] theorem setBuf_errSub (m : Memory) (s : State) : (setBuf m s).errSub = s.errSub := rfl
@[simp] theorem setBuf_ovfStb (m : Memory) (s : State) : (setBuf m s).ovfStb = s.ovfStb := rfl
@[simp] theorem setBuf_scan (m : Memory) (s : State) : (setBuf m s).scan = s.scan := rfl
@[simp] theorem setBuf_toks (m : Memory) (s : State) : (setBuf m s).toks = s.toks := rfl
@[simp] theorem setBuf_parser (m : Memory) (s : State) : (setBuf m s).parser = s.parser := rfl

@[simp] theorem setLen_cfg (n : Nat) (s : State) : (setLen n s).cfg = s.cfg := rfl
@[simp] theorem setLen_inputs (n : Nat) (s : State) : (setLen n s).inputs = s.inputs := rfl
@[simp] theorem setLen_buf (n : Nat) (s : State) : (setLen n s).buf = s.buf := rfl
@[simp] theorem setLen_len (n : Nat) (s : State) : (setLen n s).len = n := rfl
@[simp] theorem setLen_meas (n : Nat) (s : State) : (setLen n s).meas = s.meas := rfl
@[simp] theorem setLen_measValid (n : Nat) (s : State) : (setLen n s).measValid = s.measValid := rfl
@[simp] theorem setLen_measStb (n : Nat) (s : State) : (setLen n s).measStb = s.measStb := rfl
@[simp] theorem setLen_errStb (n : Nat) (s : State) : (setLen n s).errStb = s.errStb := rfl
@[simp] theorem setLen_errCode (n : Nat) (s : State) : (setLen n s).errCode = s.errCode := rfl
@[simp] theorem setLen_errSub (n : Nat) (s : State) : (setLen n s).errSub = s.errSub := rfl
@[simp] theorem setLen_ovfStb (n : Nat) (s : State) : (setLen n s).ovfStb = s.ovfStb := rfl
@[simp] theorem setLen_scan (n : Nat) (s : State) : (setLen n s).scan = s.scan := rfl
@[simp] theorem setLen_toks (n : Nat) (s : State) : (setLen n s).toks = s.toks := rfl
@[simp] theorem setLen_parser (n : Nat) (s : State) : (setLen n s).parser = s.parser := rfl

@[simp] theorem setScan_cfg (r : Scan) (s : State) : (setScan r s).cfg = s.cfg := rfl
@[simp] theorem setScan_inputs (r : Scan) (s : State) : (setScan r s).inputs = s.inputs := rfl
@[simp] theorem setScan_buf (r : Scan) (s : State) : (setScan r s).buf = s.buf := rfl
@[simp] theorem setScan_len (r : Scan) (s : State) : (setScan r s).len = s.len := rfl
@[simp] theorem setScan_meas (r : Scan) (s : State) : (setScan r s).meas = s.meas := rfl
@[simp] theorem setScan_measValid (r : Scan) (s : State) : (setScan r s).measValid = s.measValid := rfl
@[simp] theorem setScan_measStb (r : Scan) (s : State) : (setScan r s).measStb = s.measStb := rfl
@[simp] theorem setScan_errStb (r : Scan) (s : State) : (setScan r s).errStb = s.errStb := rfl
@[simp] theorem setScan_errCode (r : Scan) (s : State) : (setScan r s).errCode = s.errCode := rfl
@[simp] theorem setScan_errSub (r : Scan) (s : State) : (setScan r s).errSub = s.errSub := rfl
@[simp] theorem setScan_ovfStb (r : Scan) (s : State) : (setScan r s).ovfStb = s.ovfStb := rfl
@[simp] theorem setScan_scan (r : Scan) (s : State) : (setScan r s).scan = r := rfl
@[simp] theorem setScan_toks (r : Scan) (s : State) : (setScan r s).toks = s.toks := rfl
@[simp] theorem setScan_parser (r : Scan) (s : State) : (setScan r s).parser = s.parser := rfl

@[simp] theorem setToks_cfg (k : Tokens) (s : State) : (setToks k s).cfg = s.cfg := rfl
@[simp] theorem setToks_inputs (k : Tokens) (s : State) : (setToks k s).inputs = s.inputs := rfl
@[simp] theorem setToks_buf (k : Tokens) (s : State) : (setToks k s).buf = s.buf := rfl
@[simp] theorem setToks_len (k : Tokens) (s : State) : (setToks k s).len = s.len := rfl
@[simp] theorem setToks_meas (k : Tokens) (s : State) : (setToks k s).meas = s.meas := rfl
@[simp] theorem setToks_measValid (k : Tokens) (s : State) : (setToks k s).measValid = s.measValid := rfl
@[simp] theorem setToks_measStb (k : Tokens) (s : State) : (setToks k s).measStb = s.measStb := rfl
@[simp] theorem setToks_errStb (k : Tokens) (s : State) : (setToks k s).errStb = s.errStb := rfl
@[simp] theorem setToks_errCode (k : Tokens) (s : State) : (setToks k s).errCode = s.errCode := rfl
@[simp] theorem setToks_errSub (k : Tokens) (s : State) : (setToks k s).errSub = s.errSub := rfl
@[simp] theorem setToks_ovfStb (k : Tokens) (s : State) : (setToks k s).ovfStb = s.ovfStb := rfl
@[simp] theorem setToks_scan (k : Tokens) (s : State) : (setToks k s).scan = s.scan := rfl
@[simp] theorem setToks_toks (k : Tokens) (s : State) : (setToks k s).toks = k := rfl
@[simp] theorem setToks_parser (k : Tokens) (s : State) : (setToks k s).parser = s.parser := rfl

@[simp] theorem setParser_cfg (r : Parser) (s : State) : (setParser r s).cfg = s.cfg := rfl
@[simp] theorem setParser_inputs (r : Parser) (s : State) : (setParser r s).inputs = s.inputs := rfl
@[simp] theorem setParser_buf (r : Parser) (s : State) : (setParser r s).buf = s.buf := rfl
@[simp] theorem setParser_len (r : Parser) (s : State) : (setParser r s).len = s.len := rfl
@[simp] theorem setParser_meas (r : Parser) (s : State) : (setParser r s).meas = s.meas := rfl
@[simp] theorem setParser_measValid (r : Parser) (s : State) : (setParser r s).measValid = s.measValid := rfl
@[simp] theorem setParser_measStb (r : Parser) (s : State) : (setParser r s).measStb = s.measStb := rfl
@[simp] theorem setParser_errStb (r : Parser) (s : State) : (setParser r s).errStb = s.errStb := rfl
@[simp] theorem setParser_errCode (r : Parser) (s : State) : (setParser r s).errCode = s.errCode := rfl
@[simp] theorem setParser_errSub (r : Parser) (s : State) : (setParser r s).errSub = s.errSub := rfl
@[simp] theorem setParser_ovfStb (r : Parser) (s : State) : (setParser r s).ovfStb = s.ovfStb := rfl
@[simp] theorem setParser_scan (r : Parser) (s : State) : (setParser r s).scan = s.scan := rfl
@[simp] theorem setParser_toks (r : Parser) (s : State) : (setParser r s).toks = s.toks := rfl
@[simp] theorem setParser_parser (r : Parser) (s : State) : (setParser r s).parser = r := rfl

@[simp] theorem takeInput_cfg (s : State) : (takeInput s).cfg = s.cfg := rfl
@[simp] theorem takeInput_inputs (s : State) : (takeInput s).inputs = s.inputs.drop 1 := rfl
@[simp] theorem takeInput_buf (s : State) : (takeInput s).buf = s.buf := rfl
@[simp] theorem takeInput_len (s : State) : (takeInput s).len = s.len := rfl
@[simp] theorem takeInput_meas (s : State) : (takeInput s).meas = s.meas := rfl
@[simp] theorem takeInput_measValid (s : State) : (takeInput s).measValid = s.measValid := rfl
@[simp] theorem takeInput_measStb (s : State) : (takeInput s).measStb = s.measStb := rfl
@[simp] theorem takeInput_errStb (s : State) : (takeInput s).errStb = s.errStb := rfl
@[simp] theorem takeInput_errCode (s : State) : (takeInput s).errCode = s.errCode := rfl
@[simp] theorem takeInput_errSub (s : State) : (takeInput s).errSub = s.errSub := rfl
@[simp] theorem takeInput_ovfStb (s : State) : (takeInput s).ovfStb = s.ovfStb := rfl
@[simp] theorem takeInput_scan (s : State) : (takeInput s).scan = s.scan := rfl
@[simp] theorem takeInput_toks (s : State) : (takeInput s).toks = s.toks := rfl
@[simp] theorem takeInput_parser (s : State) : (takeInput s).parser = s.parser := rfl

@[simp] theorem resetState_cfg (s : State) : (resetState s).cfg = s.cfg := rfl
@[simp] theorem resetState_inputs (s : State) : (resetState s).inputs = s.inputs := rfl
@[simp] theorem resetState_buf (s : State) : (resetState s).buf = [] := rfl
@[simp] theorem resetState_len (s : State) : (resetState s).len = 0 := rfl
@[simp] theorem resetState_meas (s : State) : (resetState s).meas = none := rfl
@[simp] theorem resetState_measValid (s : State) : (resetState s).measValid = false := rfl
@[simp] theorem resetState_measStb (s : State) : (resetState s).measStb = false := rfl
@[simp] theorem resetState_errStb (s : State) : (resetState s).errStb = false := rfl
@[simp] theorem resetState_errCode (s : State) : (resetState s).errCode = 0#3 := rfl
@[simp] theorem resetState_errSub (s : State) : (resetState s).errSub = false := rfl
@[simp] theorem resetState_ovfStb (s : State) : (resetState s).ovfStb = false := rfl
@[simp] theorem resetState_scan (s : State) : (resetState s).scan = Scan.init := rfl
@[simp] theorem resetState_toks (s : State) : (resetState s).toks = Tokens.init := rfl
@[simp] theorem resetState_parser (s : State) : (resetState s).parser = Parser.init := rfl

end Sys2Proof.Machine
end

