-- ==== Sys2Proof/Laws/Memory.lean ====
section
/-! SUPPORT. The laws of the frame buffer: a read after a write, the canonical form and the cells a
write leaves alone, and what the completion read gives. -/

namespace Sys2Proof.Machine

/-- A write is read back at its own cell and nowhere else, whatever the list. -/
theorem memRead_memWrite (m : Memory) (a : Nat) (v : Byte) (i : Nat) :
    memRead (memWrite m a v) i = if i = a then some v else memRead m i := by
  induction m with
  | nil => simp [memWrite, memRead, eq_comm]
  | cons cell rest ih =>
    obtain ⟨k, x⟩ := cell
    simp only [memWrite]
    split
    · by_cases h : a = i
      · subst h; simp [memRead]
      · simp [memRead, h, Ne.symm h]
    · split
      · subst_vars
        by_cases h : k = i
        · subst h; simp [memRead]
        · simp [memRead, h, Ne.symm h]
      · rename_i h1 h2
        simp only [memRead, ih]
        by_cases h : k = i
        · subst h; simp [Ne.symm h2]
        · simp [h]

@[simp] theorem memRead_memWrite_self (m : Memory) (a : Nat) (v : Byte) :
    memRead (memWrite m a v) a = some v := by simp [memRead_memWrite]

theorem memRead_memWrite_ne (m : Memory) (a : Nat) (v : Byte) {i : Nat} (h : i ≠ a) :
    memRead (memWrite m a v) i = memRead m i := by simp [memRead_memWrite, h]

/-- A write keeps the canonical form above any address not above its own. -/
theorem memRisesFrom_memWrite (m : Memory) (a : Nat) (v : Byte) (lo : Nat)
    (h : memRisesFrom lo m = true) (hlo : lo ≤ a) : memRisesFrom lo (memWrite m a v) = true := by
  induction m generalizing lo with
  | nil => simp [memWrite, memRisesFrom, hlo]
  | cons cell rest ih =>
    obtain ⟨k, x⟩ := cell
    simp only [memRisesFrom, Bool.and_eq_true, decide_eq_true_eq] at h
    simp only [memWrite]
    split
    · rename_i hak
      simp [memRisesFrom, hlo, h.2]
      omega
    · split
      · subst_vars
        simp [memRisesFrom, h.1, h.2]
      · simp [memRisesFrom, h.1, ih (k + 1) h.2 (by omega)]

/-- Every write keeps the canonical form of BUF. -/
theorem memWrite_wf (m : Memory) (a : Nat) (v : Byte) (h : Memory.wf m = true) :
    Memory.wf (memWrite m a v) = true :=
  memRisesFrom_memWrite m a v 0 h (Nat.zero_le a)

/-- BUF after reset is in canonical form. -/
theorem reset_buf_wf : Memory.wf State.reset.buf = true := rfl

/-- The write of a cell of BUF: it faults outside the index space, and inside it changes BUF only. -/
theorem bufWrite_eq_ok {i : Nat} {v : Byte} {s t : State} :
    bufWrite i v s = .ok t ↔
      i < s.cfg.capacity ∧ t = setBuf (memWrite s.buf i v) s := by
  unfold bufWrite
  split <;> simp_all [eq_comm]

/-- A completion read that succeeds: the bytes are those of the cells, in arrival order. -/
theorem memReadFrom_eq_ok {m : Memory} {i n : Nat} {p : List Byte} :
    memReadFrom m i n = .ok p ↔
      p.length = n ∧ ∀ j, j < n → memRead m (i + j) = p[j]? := by
  induction n generalizing i p with
  | zero =>
    simp only [memReadFrom, Except.ok.injEq]
    constructor
    · rintro rfl; simp
    · rintro ⟨h, -⟩; exact (List.length_eq_zero_iff.mp h).symm
  | succ n ih =>
    simp only [memReadFrom]
    cases hb : memRead m i with
    | none =>
      simp only [reduceCtorEq, false_iff, not_and]
      intro hl h
      have h0 := h 0 (by omega)
      rw [Nat.add_zero, hb] at h0
      have : p.length = 0 := by
        cases p with
        | nil => rfl
        | cons b bs => simp at h0
      omega
    | some b =>
      have key : ∀ bs, memReadFrom m (i + 1) n = .ok bs ↔
          (b :: bs).length = n + 1 ∧ ∀ j, j < n + 1 → memRead m (i + j) = (b :: bs)[j]? := by
        intro bs
        rw [ih]
        constructor
        · rintro ⟨hl, h⟩
          refine ⟨by simp [hl], fun j hj => ?_⟩
          cases j with
          | zero => simp [hb]
          | succ j =>
            have := h j (by omega)
            rw [show i + (j + 1) = i + 1 + j by omega, this]
            simp
        · rintro ⟨hl, h⟩
          refine ⟨by simpa using hl, fun j hj => ?_⟩
          have := h (j + 1) (by omega)
          rw [show i + 1 + j = i + (j + 1) by omega, this]
          simp
      cases hr : memReadFrom m (i + 1) n with
      | ok bs =>
        simp only [Except.ok.injEq]
        constructor
        · rintro rfl; exact (key bs).mp hr
        · rintro ⟨hl, h⟩
          cases p with
          | nil => simp at hl
          | cons c cs =>
            have h0 := h 0 (by omega)
            rw [Nat.add_zero, hb] at h0
            obtain rfl : b = c := by simpa using h0
            have := (key cs).mpr ⟨hl, h⟩
            rw [hr] at this
            simpa using this
      | error f =>
        simp only [reduceCtorEq, false_iff, not_and]
        intro hl h
        cases p with
        | nil => simp at hl
        | cons c cs =>
          have h0 := h 0 (by omega)
          rw [Nat.add_zero, hb] at h0
          obtain rfl : b = c := by simpa using h0
          have := (key cs).mpr ⟨hl, h⟩
          rw [hr] at this
          cases this

/-- `bufRead` on the whole: `n` bytes, byte `j` from cell `j`. -/
theorem bufRead_eq_ok {n : Nat} {s : State} {p : List Byte} :
    bufRead n s = .ok p ↔ p.length = n ∧ ∀ j, j < n → memRead s.buf j = p[j]? := by
  unfold bufRead
  rw [memReadFrom_eq_ok]
  simp

end Sys2Proof.Machine
end

