-- ==== Sys2Proof/Laws/Ops.lean ====
section
/-! SUPPORT. What each shared operation can do, said once: the shape of a step, the framer's common body
and its completion, and the report of a decode. -/

namespace Sys2Proof.Machine

/-- Clearing the strobes twice is clearing them once. -/
@[simp] theorem beginStep_beginStep (s : State) : beginStep (beginStep s) = beginStep s := rfl

/-- An operation answers a next state exactly when the configuration is admitted and its body, run on
the state with strobes cleared, gives that state. -/
theorem perform_eq_next {op : State → Except Fault State} {s t : State} :
    perform op s = .next t ↔ configOk s.cfg = true ∧ op (beginStep s) = .ok t := by
  unfold perform
  split
  · cases h : op (beginStep s) <;> simp_all
  · simp_all

/-- An operation whose body cannot stop answers its update of the state with strobes cleared. -/
theorem perform_ok_eq_next {f : State → State} {s t : State} :
    perform (fun u => .ok (f u)) s = .next t ↔ configOk s.cfg = true ∧ t = f (beginStep s) := by
  rw [perform_eq_next, Except.ok.injEq, eq_comm (b := t)]

/-- The same operation after an IDLE's clearing of the strobes gives the same outcome. -/
@[simp] theorem perform_beginStep (op : State → Except Fault State) (s : State) :
    perform op (beginStep s) = perform op s := rfl

/-- A refused configuration, whatever the operation. -/
theorem perform_of_not_configOk {op : State → Except Fault State} {s : State}
    (h : configOk s.cfg = false) : perform op s = .refused .badConfiguration := by
  simp [perform, h]

/-- `FEED_COMMON`: the cell LEN is written and the byte discarded at the boundary, or kept below it. -/
theorem feedCommon_eq_ok {b : Byte} {s : State} {r : Fed} :
    feedCommon b s = .ok r ↔
      s.len < s.cfg.capacity ∧
      ((s.len = s.cfg.capacity - 1 ∧
          r = .discarded (emitOvf (setLen 0 (setBuf (memWrite s.buf s.len b) s)))) ∨
       (s.len ≠ s.cfg.capacity - 1 ∧ r = .kept (setBuf (memWrite s.buf s.len b) s))) := by
  unfold feedCommon bufWrite
  by_cases h : s.len < s.cfg.capacity
  · by_cases h2 : s.len = s.cfg.capacity - 1
    · simp only [if_pos h, if_pos h2, Except.ok.injEq]
      exact ⟨fun e => ⟨h, .inl ⟨h2, e.symm⟩⟩,
        fun e => (e.2.elim (·.2) (fun e' => absurd h2 e'.1)).symm⟩
    · simp only [if_pos h, if_neg h2, Except.ok.injEq]
      exact ⟨fun e => ⟨h, .inr ⟨h2, e.symm⟩⟩,
        fun e => (e.2.elim (fun e' => absurd e'.1 h2) (·.2)).symm⟩
  · simp [h]

/-- A completion: the packet is read whole, LEN becomes 0 and the decode is reported. -/
theorem completePacket_eq_ok {s t : State} :
    completePacket s = .ok t ↔
      ∃ p, bufRead (s.len + 1) s = .ok p ∧ t = report (decode s.cfg p) (setLen 0 s) := by
  unfold completePacket
  cases bufRead (s.len + 1) s <;> simp [eq_comm]

/-- FEED_DATA answers a next state in two ways. -/
theorem feedDataBody_eq_ok {b : Byte} {s t : State} :
    feedDataBody b s = .ok t ↔
      s.len < s.cfg.capacity ∧
      ((s.len = s.cfg.capacity - 1 ∧
          t = emitOvf (setLen 0 (setBuf (memWrite s.buf s.len b) s))) ∨
       (s.len ≠ s.cfg.capacity - 1 ∧
          t = setLen (s.len + 1) (setBuf (memWrite s.buf s.len b) s))) := by
  unfold feedDataBody
  by_cases hl : s.len < s.cfg.capacity
  · by_cases hc : s.len = s.cfg.capacity - 1
    · rw [feedCommon_eq_ok.mpr ⟨hl, .inl ⟨hc, rfl⟩⟩]
      exact ⟨fun e => ⟨hl, .inl ⟨hc, (Except.ok.inj e).symm⟩⟩,
        fun e => congrArg Except.ok (e.2.elim (·.2) (fun e' => absurd hc e'.1)).symm⟩
    · rw [feedCommon_eq_ok.mpr ⟨hl, .inr ⟨hc, rfl⟩⟩]
      exact ⟨fun e => ⟨hl, .inr ⟨hc, (Except.ok.inj e).symm⟩⟩,
        fun e => congrArg Except.ok (e.2.elim (fun e' => absurd e'.1 hc) (·.2)).symm⟩
  · have : feedCommon b s = .error .bufIndex := by simp [feedCommon, bufWrite, hl]
    simp [this, hl]

/-- FEED_TERM answers a next state in two ways. -/
theorem feedTermBody_eq_ok {s t : State} :
    feedTermBody s = .ok t ↔
      s.len < s.cfg.capacity ∧
      ((s.len = s.cfg.capacity - 1 ∧
          t = emitOvf (setLen 0 (setBuf (memWrite s.buf s.len termByte) s))) ∨
       (s.len ≠ s.cfg.capacity - 1 ∧
          ∃ p, bufRead (s.len + 1) (setBuf (memWrite s.buf s.len termByte) s) = .ok p ∧
            t = report (decode s.cfg p)
              (setLen 0 (setBuf (memWrite s.buf s.len termByte) s)))) := by
  unfold feedTermBody
  by_cases hl : s.len < s.cfg.capacity
  · by_cases hc : s.len = s.cfg.capacity - 1
    · rw [feedCommon_eq_ok.mpr ⟨hl, .inl ⟨hc, rfl⟩⟩]
      exact ⟨fun e => ⟨hl, .inl ⟨hc, (Except.ok.inj e).symm⟩⟩,
        fun e => congrArg Except.ok (e.2.elim (·.2) (fun e' => absurd hc e'.1)).symm⟩
    · rw [feedCommon_eq_ok.mpr ⟨hl, .inr ⟨hc, rfl⟩⟩]
      simp only [completePacket_eq_ok, hl, hc, true_and, false_and, false_or, ne_eq,
        not_false_eq_true]
      exact Iff.rfl
  · have : feedCommon termByte s = .error .bufIndex := by simp [feedCommon, bufWrite, hl]
    simp [this, hl]

end Sys2Proof.Machine
end

