-- ==== Sys2Proof/Laws/Exec.lean ====
section
/-! SUPPORT. What each instruction answers, said once: its next state as a named update of the state with
strobes cleared, and when it answers one. -/

namespace Sys2Proof.Machine

/-- RESET (R117). -/
theorem exec_reset_eq_next {s t : State} :
    exec .reset s = .next t ↔ configOk s.cfg = true ∧ t = resetState (beginStep s) :=
  perform_ok_eq_next

/-- IDLE (R63). -/
theorem exec_idle_eq_next {s t : State} :
    exec .idle s = .next t ↔ configOk s.cfg = true ∧ t = beginStep s :=
  perform_ok_eq_next (f := fun u => u)

/-- FEED_TERM (R62). -/
theorem exec_feedTerm_eq_next {s t : State} :
    exec .feedTerm s = .next t ↔
      configOk s.cfg = true ∧ feedTermBody (beginStep s) = .ok t :=
  perform_eq_next

/-- FEED_DATA (R61). -/
theorem exec_feedData_eq_next {b : Byte} {s t : State} :
    exec (.feedData b) s = .next t ↔
      configOk s.cfg = true ∧ feedDataBody b (beginStep s) = .ok t :=
  perform_eq_next

/-- TXT_TERM (R73). -/
theorem exec_txtTerm_eq_next {s t : State} :
    exec .txtTerm s = .next t ↔
      configOk s.cfg = true ∧ t = setScan (scanTerm s.scan) (beginStep s) :=
  perform_ok_eq_next

/-- TXT_NONASCII (R74). -/
theorem exec_txtNonAscii_eq_next {b : Byte} {s t : State} :
    exec (.txtNonAscii b) s = .next t ↔
      configOk s.cfg = true ∧ t = setScan (scanNonAscii s.scan) (beginStep s) :=
  perform_ok_eq_next

/-- TOK_WS (R75). -/
theorem exec_tokWs_eq_next {b : Byte} {s t : State} :
    exec (.tokWs b) s = .next t ↔
      configOk s.cfg = true ∧ t = setToks (tokBreak s.toks) (beginStep s) :=
  perform_ok_eq_next

/-- PC_DIGIT (R94). -/
theorem exec_pcDigit_eq_next {d : BitVec 4} {s t : State} :
    exec (.pcDigit d) s = .next t ↔
      configOk s.cfg = true ∧ t = setParser (parserDigit d.toNat s.parser) (beginStep s) :=
  perform_ok_eq_next

/-- PC_POINT (R95). -/
theorem exec_pcPoint_eq_next {s t : State} :
    exec .pcPoint s = .next t ↔
      configOk s.cfg = true ∧ t = setParser (parserPoint s.parser) (beginStep s) :=
  perform_ok_eq_next

/-- PC_PLUS (R96). -/
theorem exec_pcPlus_eq_next {s t : State} :
    exec .pcPlus s = .next t ↔
      configOk s.cfg = true ∧ t = setParser (parserSign false s.parser) (beginStep s) :=
  perform_ok_eq_next

/-- PC_MINUS (R96). -/
theorem exec_pcMinus_eq_next {s t : State} :
    exec .pcMinus s = .next t ↔
      configOk s.cfg = true ∧ t = setParser (parserSign true s.parser) (beginStep s) :=
  perform_ok_eq_next

/-- PC_OTHER (R97). -/
theorem exec_pcOther_eq_next {c : Byte} {s t : State} :
    exec (.pcOther c) s = .next t ↔
      configOk s.cfg = true ∧ t = setParser (parserOther s.parser) (beginStep s) :=
  perform_ok_eq_next

/-- Every instruction clears the strobes itself, so clearing them beforehand makes no difference
(R59). -/
theorem exec_beginStep (i : Instr) (s : State) : exec i (beginStep s) = exec i s := by
  cases i <;> rfl

end Sys2Proof.Machine
end

