-- ==== Sys2Proof/Laws/Effect.lean ====
section
/-! SUPPORT. The inversion of `exec`: the few shapes a next state has, over all twelve instructions, for
proofs about every step. -/

namespace Sys2Proof.Machine

/-- What a publication or an error event leaves of a state, field by field (R62, R87, R108). -/
theorem report_fields (r : Except ErrKind Measurement) (s : State) :
    (report r s).cfg = s.cfg ∧ (report r s).inputs = s.inputs ∧ (report r s).buf = s.buf ∧
    (report r s).len = s.len ∧ (report r s).ovfStb = s.ovfStb ∧ (report r s).scan = s.scan ∧
    (report r s).toks = s.toks ∧ (report r s).parser = s.parser ∧
    ((∃ m, r = .ok m ∧ (report r s).meas = some m ∧ (report r s).measValid = true ∧
        (report r s).measStb = true ∧ (report r s).errStb = s.errStb ∧
        (report r s).errCode = s.errCode ∧ (report r s).errSub = s.errSub) ∨
     (∃ k, r = .error k ∧ (report r s).meas = s.meas ∧ (report r s).measValid = s.measValid ∧
        (report r s).measStb = s.measStb ∧ (report r s).errStb = true ∧
        (report r s).errCode = errCode k ∧ (report r s).errSub = errSub k)) := by
  cases r <;> simp [report]

/-- The shapes of a next state: RESET, IDLE, a row of the decoder's units, a FEED discarded at the
boundary, a data byte kept, a packet completed. -/
inductive Effect (s t : State) : Instr → Prop
  | reset : t = resetState s → Effect s t .reset
  | idle : t = beginStep s → Effect s t .idle
  | unit (i : Instr) (r : Scan) (k : Tokens) (q : Parser) : (¬∃ w, encode i = .word w) →
      t = setParser q (setToks k (setScan r (beginStep s))) → Effect s t i
  | discard (i : Instr) (b : Byte) : ((i = .feedTerm ∧ b = termByte) ∨ i = .feedData b) →
      s.len < s.cfg.capacity → s.len = s.cfg.capacity - 1 →
      t = emitOvf (setLen 0 (setBuf (memWrite s.buf s.len b) (beginStep s))) → Effect s t i
  | keep (b : Byte) : s.len < s.cfg.capacity → s.len ≠ s.cfg.capacity - 1 →
      t = setLen (s.len + 1) (setBuf (memWrite s.buf s.len b) (beginStep s)) →
      Effect s t (.feedData b)
  | complete (p : List Byte) : s.len < s.cfg.capacity → s.len ≠ s.cfg.capacity - 1 →
      bufRead (s.len + 1) (setBuf (memWrite s.buf s.len termByte) s) = .ok p →
      t = report (decode s.cfg p)
        (setLen 0 (setBuf (memWrite s.buf s.len termByte) (beginStep s))) →
      Effect s t .feedTerm

/-- Every next state has one of those shapes. -/
theorem exec_effect {s t : State} {i : Instr} (h : exec i s = .next t) :
    configOk s.cfg = true ∧ Effect s t i := by
  cases i with
  | reset => have h := exec_reset_eq_next.mp h; exact ⟨h.1, .reset h.2⟩
  | idle => have h := exec_idle_eq_next.mp h; exact ⟨h.1, .idle h.2⟩
  | feedTerm =>
    obtain ⟨h1, h2⟩ := exec_feedTerm_eq_next.mp h
    obtain ⟨h2, ⟨h3, h4⟩ | ⟨h3, p, h4, h5⟩⟩ := feedTermBody_eq_ok.mp h2
    · exact ⟨h1, .discard _ termByte (.inl ⟨rfl, rfl⟩) h2 h3 h4⟩
    · exact ⟨h1, .complete p h2 h3 h4 h5⟩
  | feedData b =>
    obtain ⟨h1, h2⟩ := exec_feedData_eq_next.mp h
    obtain ⟨h2, ⟨h3, h4⟩ | ⟨h3, h4⟩⟩ := feedDataBody_eq_ok.mp h2
    · exact ⟨h1, .discard _ b (.inr rfl) h2 h3 h4⟩
    · exact ⟨h1, .keep b h2 h3 h4⟩
  | txtTerm =>
    obtain ⟨h1, rfl⟩ := exec_txtTerm_eq_next.mp h
    exact ⟨h1, .unit _ (scanTerm s.scan) s.toks s.parser (by simp [encode]) rfl⟩
  | txtNonAscii b =>
    obtain ⟨h1, rfl⟩ := exec_txtNonAscii_eq_next.mp h
    exact ⟨h1, .unit _ (scanNonAscii s.scan) s.toks s.parser (by simp [encode]) rfl⟩
  | tokWs b =>
    obtain ⟨h1, rfl⟩ := exec_tokWs_eq_next.mp h
    exact ⟨h1, .unit _ s.scan (tokBreak s.toks) s.parser (by simp [encode]) rfl⟩
  | pcDigit d =>
    obtain ⟨h1, rfl⟩ := exec_pcDigit_eq_next.mp h
    exact ⟨h1, .unit _ s.scan s.toks _ (by simp [encode]) rfl⟩
  | pcPoint =>
    obtain ⟨h1, rfl⟩ := exec_pcPoint_eq_next.mp h
    exact ⟨h1, .unit _ s.scan s.toks _ (by simp [encode]) rfl⟩
  | pcPlus =>
    obtain ⟨h1, rfl⟩ := exec_pcPlus_eq_next.mp h
    exact ⟨h1, .unit _ s.scan s.toks _ (by simp [encode]) rfl⟩
  | pcMinus =>
    obtain ⟨h1, rfl⟩ := exec_pcMinus_eq_next.mp h
    exact ⟨h1, .unit _ s.scan s.toks _ (by simp [encode]) rfl⟩
  | pcOther c =>
    obtain ⟨h1, rfl⟩ := exec_pcOther_eq_next.mp h
    exact ⟨h1, .unit _ s.scan s.toks _ (by simp [encode]) rfl⟩

/-- Passing a byte that has no row has the shape of a unit's row: the strobes are cleared and only
units change. -/
theorem passPlain_effect {b : PlainByte} {s t : State} (h : passPlain b s = .next t) :
    configOk s.cfg = true ∧ ∃ r k, t = setToks k (setScan r (beginStep s)) := by
  cases b with
  | scan c =>
    obtain ⟨h1, rfl⟩ := perform_ok_eq_next.mp h
    exact ⟨h1, scanPlain s.scan, s.toks, rfl⟩
  | text c =>
    obtain ⟨h1, rfl⟩ := perform_ok_eq_next.mp h
    exact ⟨h1, s.scan, tokChar c s.toks, rfl⟩

end Sys2Proof.Machine
end

