-- ==== Sys2Proof/Laws/Fields.lean ====
section
/-! SUPPORT. Resolving a group by its last writer, the annunciator fold, and the weights of a valid
`BAR_MAP`. -/

namespace Sys2Proof.Machine

/-- A fold in which each entry either writes a value or passes the old one on ends with the old value if
none writes. -/
theorem fold_no_writer {α β : Type} (w : α → Option β) (l : List α) (v : β)
    (h : ∀ e ∈ l, w e = none) : l.foldl (fun v e => (w e).getD v) v = v := by
  induction l generalizing v with
  | nil => rfl
  | cons e rest ih =>
    simp [h e (by simp), ih _ fun x hx => h x (by simp [hx])]

/-- It ends with the value of the last entry that writes (R80, R81, R83). -/
theorem fold_last_writer {α β : Type} (w : α → Option β) (before after : List α) (e : α) (x : β)
    (v : β) (he : w e = some x) (h : ∀ e' ∈ after, w e' = none) :
    (before ++ e :: after).foldl (fun v e => (w e).getD v) v = x := by
  rw [List.foldl_append, List.foldl_cons, he, Option.getD_some, fold_no_writer w after x h]

/-- It ends with a value that some entry writes, or with the old one. -/
theorem fold_writer_cases {α β : Type} (w : α → Option β) (l : List α) (v : β) :
    l.foldl (fun v e => (w e).getD v) v = v ∨
      ∃ e ∈ l, w e = some (l.foldl (fun v e => (w e).getD v) v) := by
  induction l generalizing v with
  | nil => exact .inl rfl
  | cons e rest ih =>
    rw [List.foldl_cons]
    rcases ih ((w e).getD v) with h | ⟨e', he', h⟩
    · cases hw : w e with
      | none => left; rw [hw] at h; exact h
      | some x => right; rw [hw] at h; exact ⟨e, by simp, by rw [Option.getD_some] at h ⊢; rw [h, hw]⟩
    · exact .inr ⟨e', by simp [he'], h⟩

/-- Setting a bit of the annunciator word sets that bit and no other. -/
theorem setAnn_getLsbD (w : BitVec 32) (b i : Nat) (hi : i < 32) :
    (setAnn w b).getLsbD i = (w.getLsbD i || decide (b = i)) := by
  unfold setAnn
  rw [BitVec.getLsbD_or, BitVec.getLsbD_shiftLeft]
  congr 1
  by_cases h : b = i
  · subst h; simp [hi]
  · by_cases h2 : i < b
    · simp [h2, h]
    · have : i - b ≠ 0 := by omega
      simp [h2, h, hi, BitVec.getLsbD_one, this]

/-- The annunciator fold: a bit is set exactly if it was or an entry sets it (R85). -/
theorem annFold_getLsbD (p : List Byte) (m : List FieldEntry) (w : BitVec 32) (i : Nat)
    (hi : i < 32) :
    (m.foldl (fun w e => ((annWrite p e).map (setAnn w)).getD w) w).getLsbD i
      = (w.getLsbD i || m.any fun e => annWrite p e == some i) := by
  induction m generalizing w with
  | nil => simp
  | cons e rest ih =>
    rw [List.foldl_cons, ih, List.any_cons]
    cases h : annWrite p e with
    | none => simp
    | some b =>
      rw [Option.map_some, Option.getD_some, setAnn_getLsbD _ _ _ hi, Bool.or_assoc]
      congr 2

/-- The weights of an admitted `BAR_MAP` add up to 16383 (R10, R84). -/
theorem barMapOk_weight_sum {m : List BarEntry} (h : barMapOk m = true) :
    (m.map (·.weight)).sum = 16383 := by
  simp only [barMapOk, Bool.and_eq_true] at h
  have hp := List.isPerm_iff.mp h.2
  rw [hp.sum_eq]
  decide

/-- A bit is 0 or 1. -/
theorem packetBit_le_one (p : List Byte) (o b : Nat) : packetBit p o b ≤ 1 := by
  unfold packetBit; split <;> omega

/-- The weighted sum is at most the sum of the weights. -/
theorem barSum_le (m : List BarEntry) (p : List Byte) : barSum m p ≤ (m.map (·.weight)).sum := by
  unfold barSum
  induction m with
  | nil => simp
  | cons e rest ih =>
    have : packetBit p e.offset e.bit * e.weight ≤ e.weight := by
      have := packetBit_le_one p e.offset e.bit
      calc _ ≤ 1 * e.weight := Nat.mul_le_mul_right _ this
        _ = e.weight := Nat.one_mul _
    simp only [List.map_cons, List.sum_cons]
    omega

end Sys2Proof.Machine
end

