-- ==== Sys2Proof/Laws/Framer.lean ====
section
/-! SUPPORT. The framer run forward: what each FEED answers from a state whose buffer holds a known
partial packet, and how an input word of R43 decodes. -/

namespace Sys2Proof.Machine

/-- R8, as the configuration check states it. -/
theorem capacity_of_configOk {c : Config} (h : configOk c = true) : 15 ≤ c.capacity := by
  simp only [configOk, Bool.and_eq_true, decide_eq_true_eq] at h
  exact h.1.1.1.1.1

/-- FEED_DATA below the boundary (R61). -/
theorem exec_feedData_keep {s : State} (b : Byte) (hc : configOk s.cfg = true)
    (hl : s.len < s.cfg.capacity) (hb : s.len ≠ s.cfg.capacity - 1) :
    exec (.feedData b) s
      = .next (setLen (s.len + 1) (setBuf (memWrite s.buf s.len b) (beginStep s))) :=
  exec_feedData_eq_next.mpr ⟨hc, feedDataBody_eq_ok.mpr ⟨hl, .inr ⟨hb, rfl⟩⟩⟩

/-- FEED_DATA at the boundary (R60). -/
theorem exec_feedData_discard {s : State} (b : Byte) (hc : configOk s.cfg = true)
    (hb : s.len = s.cfg.capacity - 1) :
    exec (.feedData b) s
      = .next (emitOvf (setLen 0 (setBuf (memWrite s.buf s.len b) (beginStep s)))) := by
  have h15 := capacity_of_configOk hc
  exact exec_feedData_eq_next.mpr
    ⟨hc, feedDataBody_eq_ok.mpr ⟨by simp only [beginStep_len, beginStep_cfg]; omega, .inl ⟨hb, rfl⟩⟩⟩

/-- FEED_TERM at the boundary (R64). -/
theorem exec_feedTerm_discard {s : State} (hc : configOk s.cfg = true)
    (hb : s.len = s.cfg.capacity - 1) :
    exec .feedTerm s
      = .next (emitOvf (setLen 0 (setBuf (memWrite s.buf s.len termByte) (beginStep s)))) := by
  have h15 := capacity_of_configOk hc
  exact exec_feedTerm_eq_next.mpr
    ⟨hc, feedTermBody_eq_ok.mpr ⟨by simp only [beginStep_len, beginStep_cfg]; omega, .inl ⟨hb, rfl⟩⟩⟩

/-- A byte written at LEN extends the partial packet. -/
theorem HoldsPacket_write {s : State} {q : List Byte} (h : HoldsPacket s q) (b : Byte) :
    HoldsPacket (setLen (s.len + 1) (setBuf (memWrite s.buf s.len b) (beginStep s))) (q ++ [b]) := by
  obtain ⟨hl, hq⟩ := h
  refine ⟨by simp [hl], fun i hi => ?_⟩
  simp only [setLen_len, setLen_buf, setBuf_buf] at hi ⊢
  rw [memRead_memWrite]
  by_cases h : i = s.len
  · simp [h, ← hl]
  · rw [if_neg h, hq i (by omega), List.getElem?_append_left (by omega)]

/-- The completion read of a known partial packet gives it with the terminator (R33, R62). -/
theorem bufRead_of_holds {s : State} {q : List Byte} (h : HoldsPacket s q) :
    bufRead (s.len + 1) (setBuf (memWrite s.buf s.len termByte) s) = .ok (q ++ [termByte]) := by
  have := HoldsPacket_write h termByte
  exact bufRead_eq_ok.mpr ⟨by simp [h.1], fun j hj => this.2 j hj⟩

/-- FEED_TERM below the boundary: the decode of the partial packet and the terminator (R62). -/
theorem exec_feedTerm_complete {s : State} {q : List Byte} (hc : configOk s.cfg = true)
    (hl : s.len < s.cfg.capacity) (hb : s.len ≠ s.cfg.capacity - 1) (h : HoldsPacket s q) :
    exec .feedTerm s
      = .next (report (decode s.cfg (q ++ [termByte]))
          (setLen 0 (setBuf (memWrite s.buf s.len termByte) (beginStep s)))) :=
  exec_feedTerm_eq_next.mpr
    ⟨hc, feedTermBody_eq_ok.mpr ⟨hl, .inr ⟨hb, _, bufRead_of_holds h, rfl⟩⟩⟩

/-- Cells that are all written hold some partial packet. -/
theorem holds_of_written {s : State}
    (h : ∀ i, i < s.len → ∃ b, memRead s.buf i = some b ∧ isTerm b = false) :
    ∃ q, HoldsPacket s q ∧ ∀ b ∈ q, isTerm b = false := by
  refine ⟨(List.range s.len).map fun i => (memRead s.buf i).getD 0#8,
    ⟨by simp, fun i hi => ?_⟩, fun b hb => ?_⟩
  · obtain ⟨b, hb, -⟩ := h i hi
    simp [hi, hb]
  · simp only [List.mem_map, List.mem_range] at hb
    obtain ⟨i, hi, rfl⟩ := hb
    obtain ⟨b, hb, ht⟩ := h i hi
    simpa [hb] using ht

/-- An IDLE word decodes to IDLE (R43). -/
theorem decodeWord_idle {w : InputWord} (h : isIdleWord w = true) : decodeWord w = .idle := by
  simp only [isIdleWord, Bool.and_eq_true, Bool.not_eq_true'] at h
  simp only [decodeWord, h.1, h.2, Bool.not_false, Bool.false_eq_true, if_false, if_true]

/-- A word with RST decodes to RESET (R43). -/
theorem decodeWord_reset {w : InputWord} (h : isResetWord w = true) : decodeWord w = .reset := by
  simp only [isResetWord] at h
  simp only [decodeWord, h, if_true]

/-- Any other word feeds its byte (R43). -/
theorem decodeWord_feed {w : InputWord} (hr : isResetWord w = false) (hi : isIdleWord w = false) :
    decodeWord w = if isTerm (inByte w) then .feedTerm else .feedData (inByte w) := by
  simp only [isResetWord] at hr
  simp only [isIdleWord, hr, Bool.not_false, Bool.true_and, Bool.not_eq_false'] at hi
  simp only [decodeWord, hr, hi, Bool.not_true, Bool.false_eq_true, if_false]

/-- The FEED word of a byte is neither RESET nor IDLE and carries the byte (R58). -/
theorem feedWord_fields : ∀ b : Byte, isResetWord (feedWord b) = false ∧
    isIdleWord (feedWord b) = false ∧ inByte (feedWord b) = b := by decide

end Sys2Proof.Machine
end

