-- ==== Sys2Proof/Laws/Packed.lean ====
section
/-! SUPPORT. The bits of a field placed in a packed word. -/

namespace Sys2Proof.Machine

/-- A placed field shows its bits from `lo` on and 0 elsewhere. -/
theorem placeField_getLsbD (n : Nat) (v : BitVec n) (lo i : Nat) :
    (placeField n v lo).getLsbD i
      = (decide (i < 32) && decide (lo ≤ i) && v.getLsbD (i - lo)) := by
  unfold placeField
  rw [BitVec.getLsbD_shiftLeft, BitVec.getLsbD_setWidth]
  by_cases h1 : i < 32
  · by_cases h2 : lo ≤ i
    · have h3 : ¬i < lo := by omega
      have h4 : i - lo < 32 := by omega
      simp [h1, h2, h3, h4]
    · have h3 : i < lo := by omega
      simp [h1, h2, h3]
  · simp [h1]

end Sys2Proof.Machine
end

