-- ==== Sys2Proof/Laws/Parser.lean ====
section
/-! SUPPORT. The decimal parser on runs of characters: the step on each class, the digits of a run, and
the phases it cannot leave. -/

namespace Sys2Proof.Machine

/-- The character classes of R47 exclude one another: a digit is in no other. -/
theorem digit_not_other : ∀ c : Byte, isDigit c = true →
    isPoint c = false ∧ isPlus c = false ∧ isMinus c = false := by decide

/-- The operand of a digit is `c − 0x30` (R47). -/
theorem digitOf_toNat : ∀ c : Byte, isDigit c = true → (digitOf c).toNat = c.toNat - 0x30 := by
  decide

/-- A DIGIT character steps as R94 says. -/
theorem parserStep_digit {c : Byte} (h : isDigit c = true) (r : Parser) :
    parserStep r c = parserDigit (c.toNat - 0x30) r := by
  simp [parserStep, h, digitOf_toNat c h]

/-- A POINT character steps as R95 says. -/
@[simp] theorem parserStep_point (r : Parser) : parserStep r 0x2E#8 = parserPoint r := rfl

/-- '+' steps as R96 says. -/
@[simp] theorem parserStep_plus (r : Parser) : parserStep r 0x2B#8 = parserSign false r := rfl

/-- '-' steps as R96 says. -/
@[simp] theorem parserStep_minus (r : Parser) : parserStep r 0x2D#8 = parserSign true r := rfl

/-- ERR is absorbing (R93). -/
theorem parserStep_err {r : Parser} (h : r.ph = .err) (c : Byte) : (parserStep r c).ph = .err := by
  unfold parserStep parserDigit parserPoint parserSign parserOther
  simp only [h]
  split
  · exact h
  · split
    · rfl
    · split
      · rfl
      · split <;> rfl

/-- ERR is absorbing over any characters (R93). -/
theorem parser_fold_err (t : List Byte) {r : Parser} (h : r.ph = .err) :
    (t.foldl parserStep r).ph = .err := by
  induction t generalizing r with
  | nil => exact h
  | cons c rest ih => exact ih (parserStep_err h c)

/-- The accumulator over a run of digits. -/
def digitsFrom (a : Nat) (ds : List Byte) : Nat :=
  ds.foldl (fun n c => 10 * n + (c.toNat - 0x30)) a

@[simp] theorem digitsFrom_nil (a : Nat) : digitsFrom a [] = a := rfl

@[simp] theorem digitsFrom_cons (a : Nat) (c : Byte) (ds : List Byte) :
    digitsFrom a (c :: ds) = digitsFrom (10 * a + (c.toNat - 0x30)) ds := by
  simp only [digitsFrom, List.foldl_cons]

theorem digitsFrom_append (a : Nat) (xs ys : List Byte) :
    digitsFrom a (xs ++ ys) = digitsFrom (digitsFrom a xs) ys := by
  simp [digitsFrom, List.foldl_append]

/-- Digits before the point: START, SIGNED and INT go to INT (R94). -/
theorem parser_fold_int (ds : List Byte) (hd : ∀ c ∈ ds, isDigit c = true) {r : Parser}
    (hr : r.ph = .start ∨ r.ph = .signed ∨ r.ph = .int) :
    ds.foldl parserStep r
      = ⟨if ds = [] then r.ph else .int, r.neg, r.seen || !ds.isEmpty, digitsFrom r.acc ds,
          r.scale⟩ := by
  induction ds generalizing r with
  | nil => cases r; simp
  | cons c rest ih =>
    have hstep : parserStep r c = ⟨.int, r.neg, true, 10 * r.acc + (c.toNat - 0x30), r.scale⟩ := by
      rw [parserStep_digit (hd c (by simp))]
      rcases hr with h | h | h <;> simp [parserDigit, h]
    rw [List.foldl_cons, hstep, ih (fun x hx => hd x (by simp [hx])) (by simp)]
    simp

/-- Digits after the point: FRAC stays, and each raises the scale (R94). -/
theorem parser_fold_frac (ds : List Byte) (hd : ∀ c ∈ ds, isDigit c = true) {r : Parser}
    (hr : r.ph = .frac) :
    ds.foldl parserStep r
      = ⟨.frac, r.neg, r.seen || !ds.isEmpty, digitsFrom r.acc ds, r.scale + ds.length⟩ := by
  induction ds generalizing r with
  | nil => cases r; simp_all
  | cons c rest ih =>
    have hstep :
        parserStep r c = ⟨.frac, r.neg, true, 10 * r.acc + (c.toNat - 0x30), r.scale + 1⟩ := by
      rw [parserStep_digit (hd c (by simp))]
      simp [parserDigit, hr]
    rw [List.foldl_cons, hstep, ih (fun x hx => hd x (by simp [hx])) rfl]
    simp
    omega

/-- The class of a point character decides it. -/
theorem isPoint_iff (c : Byte) : isPoint c = true ↔ c = 0x2E#8 := by simp [isPoint]

/-- A character that is no digit sends FRAC to ERR (R95 to R97). -/
theorem parserStep_frac_other {r : Parser} (hr : r.ph = .frac) {c : Byte}
    (h : isDigit c = false) : (parserStep r c).ph = .err := by
  unfold parserStep
  rw [h]
  cases isPoint c <;> cases isPlus c <;> cases isMinus c <;>
    simp [parserPoint, parserSign, parserOther, hr]

/-- A character that is no digit and no point sends INT and SIGNED to ERR (R96, R97). -/
theorem parserStep_int_other {r : Parser} (hr : r.ph = .int ∨ r.ph = .signed) {c : Byte}
    (h : isDigit c = false) (hp : isPoint c = false) : (parserStep r c).ph = .err := by
  unfold parserStep
  rw [h, hp]
  rcases hr with hr | hr <;> cases isPlus c <;> cases isMinus c <;>
    simp [parserSign, parserOther, hr]

end Sys2Proof.Machine
end

