-- ==== Sys2Proof/Laws/PerInstr.lean ====
section
/-! SUPPORT. Decoding gives only well-formed instructions: once per format of the opcode table, then the
family `DecodedWf`, per instruction. -/

namespace Sys2Proof

/-- An input word decodes to a well-formed operation: the terminator is FEED_TERM, so a FEED_DATA byte
is another byte (R43). -/
theorem decodeWord_wf (w : InputWord) : (decodeWord w).wf = true := by
  unfold decodeWord
  split
  · rfl
  · split
    · rfl
    · split
      · rfl
      · rename_i h
        simpa [Instr.wf] using h

/-- What the scan makes of a byte is well formed: past the terminator and ASCII tests, bit 7 is set
(R73, R74). -/
theorem decodeScan_wf {b : Byte} {i : Instr} (h : decodeScan b = .ok i) : i.wf = true := by
  unfold decodeScan at h
  split at h
  · cases h; rfl
  · split at h
    · cases h
    · rename_i hb
      cases h
      simpa [Instr.wf] using hb

/-- What the tokeniser makes of a byte is well formed: only a byte in WS has a row (R75). -/
theorem decodeText_wf {b : Byte} {i : Instr} (h : decodeText b = .ok i) : i.wf = true := by
  unfold decodeText at h
  split at h
  · rename_i hb
    cases h
    simpa [Instr.wf] using hb
  · cases h

/-- A character of class DIGIT has a low half of 0..9 (R47). -/
theorem digitOf_le : ∀ c : Byte, Machine.isDigit c = true → (Machine.digitOf c).toNat ≤ 9 := by
  decide

/-- A token character decodes to a well-formed row (R47). -/
theorem decodeChar_wf (c : Byte) : (decodeChar c).wf = true := by
  unfold decodeChar
  split
  · rename_i h
    simpa [Instr.wf] using digitOf_le c h
  · split
    · rfl
    · split
      · rfl
      · split
        · rfl
        · simp_all [Instr.wf, Machine.isOther]

/-- Whatever decodes to an instruction decodes to a well-formed one. -/
theorem decodeInput_wf {inp : Input} {i : Instr} (h : decodeInput inp = .ok i) : i.wf = true := by
  cases inp with
  | word w => cases h; exact decodeWord_wf w
  | scanByte b => exact decodeScan_wf h
  | textByte b => exact decodeText_wf h
  | tokenChar c => cases h; exact decodeChar_wf c

end Sys2Proof

namespace Sys2Proof.Laws.DecodedWf

/-- Every input that decodes to `i` gives a well-formed `i`. -/
def Statement (i : Instr) : Prop := ∀ inp : Input, decodeInput inp = .ok i → i.wf = true

theorem reset : Statement .reset := fun _ => decodeInput_wf

theorem idle : Statement .idle := fun _ => decodeInput_wf

theorem feedTerm : Statement .feedTerm := fun _ => decodeInput_wf

theorem feedData (b : Byte) : Statement (.feedData b) := fun _ => decodeInput_wf

theorem txtTerm : Statement .txtTerm := fun _ => decodeInput_wf

theorem txtNonAscii (b : Byte) : Statement (.txtNonAscii b) := fun _ => decodeInput_wf

theorem tokWs (b : Byte) : Statement (.tokWs b) := fun _ => decodeInput_wf

theorem pcDigit (d : BitVec 4) : Statement (.pcDigit d) := fun _ => decodeInput_wf

theorem pcPoint : Statement .pcPoint := fun _ => decodeInput_wf

theorem pcPlus : Statement .pcPlus := fun _ => decodeInput_wf

theorem pcMinus : Statement .pcMinus := fun _ => decodeInput_wf

theorem pcOther (c : Byte) : Statement (.pcOther c) := fun _ => decodeInput_wf

end Sys2Proof.Laws.DecodedWf
end

