-- ==== Sys2Proof/Tests/Slice0.lean ====
section
/-! SUPPORT. Tests of single steps and functions against the vectors of `95_test_vectors.md` and the
examples of the rules, and a witness for each statement that has hypotheses. -/

namespace Sys2Proof.Tests

open Sys2Proof Sys2Proof.Machine

/-! ### Helpers -/

/-- The packet builder of `95_test_vectors.md` §2: flag bytes 3..16, then text, then padding. -/
def packet (flags text : List Byte) : List Byte :=
  [0x44#8, 0x4D#8, 0x4D#8] ++ flags ++ [0x20#8] ++ text
    ++ List.replicate (24 - text.length) 0x20#8 ++ [0x0D#8]

/-- Flag bytes with no flag set. -/
def noFlags : List Byte := List.replicate 14 0x40#8

/-- "12.34". -/
def text1234 : List Byte := [0x31#8, 0x32#8, 0x2E#8, 0x33#8, 0x34#8]

/-- Packet A (L1-1). -/
def packetA : List Byte := packet ([0x48#8, 0x40#8, 0x42#8, 0x42#8] ++ List.replicate 10 0x40#8) text1234

/-- Packet B (§5): the value is "-0.125". -/
def packetB : List Byte :=
  packet ([0x44#8, 0x40#8, 0x44#8, 0x4C#8, 0x49#8] ++ List.replicate 3 0x40#8 ++ [0x48#8, 0x5F#8]
      ++ List.replicate 4 0x40#8)
    [0x2D#8, 0x30#8, 0x2E#8, 0x31#8, 0x32#8, 0x35#8]

/-- The packet of D15: VOLT, AC and the value "1.2.3". -/
def packetC : List Byte :=
  packet ([0x40#8, 0x40#8, 0x42#8, 0x41#8] ++ List.replicate 10 0x40#8)
    [0x31#8, 0x2E#8, 0x32#8, 0x2E#8, 0x33#8]

/-- A packet of the builder with the value "7". -/
def packet7 (flags : List Byte) : List Byte := packet flags [0x37#8]

/-- The record L1-1 expects of A. -/
def recordA : Measurement :=
  ⟨1234, 2, .kilo, .volt, .dc, none, 0#32, packetA, 42⟩

/-- The record S3 expects of B. -/
def recordB : Measurement :=
  ⟨-125, 3, .milli, .second, .pw, some 1000, 9#32, packetB, 42⟩

/-- BUF with `q` in its first cells. -/
def bufOf (q : List Byte) : Memory := (List.range q.length).zip q

/-- The state after reset with another capacity and the partial packet `q`. -/
def holding (cap : Nat) (q : List Byte) : State :=
  { State.reset with cfg := { tcfg with capacity := cap }, buf := bufOf q, len := q.length }

/-- `n` times 'A' in the buffer. -/
def holdingAs (cap n : Nat) : State := holding cap (List.replicate n 0x41#8)

/-- A or another packet up to its terminator, in the buffer. -/
def beforeTerm (p : List Byte) : State := holding 64 (p.take 42)

/-- The state an instruction leads to, or the state itself where it stops. -/
def after (i : Instr) (s : State) : State := (nextState (exec i s)).getD s

/-- A state that has published A. -/
def publishedA : State := after .feedTerm (beforeTerm packetA)

/-- The parser in another phase. -/
def inPhase (ph : Phase) : State := { State.reset with parser := { Parser.init with ph := ph } }

/-- An outcome that is a next state is the one `nextState` reads. -/
theorem nextState_eq_some {o : Host.Outcome State Fault Refusal} {t : State} :
    nextState o = some t ↔ o = .next t := by
  cases o <;> simp [nextState]

/-- An instruction that answers a next state answers `after`. -/
theorem exec_after {i : Instr} {s : State} (h : (nextState (exec i s)).isSome = true) :
    exec i s = .next (after i s) := by
  obtain ⟨t, ht⟩ := Option.isSome_iff_exists.mp h
  rw [after, ht]
  exact nextState_eq_some.mp ht

/-! ### WellFormed smoke: what each check admits and refuses -/

theorem test_wf_feedData : (Instr.feedData 0x0C#8).wf = true ∧ (Instr.feedData 0x0D#8).wf = false := by
  decide

theorem test_wf_txtNonAscii :
    (Instr.txtNonAscii 0x80#8).wf = true ∧ (Instr.txtNonAscii 0x7F#8).wf = false := by decide

theorem test_wf_tokWs : (Instr.tokWs 0x09#8).wf = true ∧ (Instr.tokWs 0x08#8).wf = false ∧
    (Instr.tokWs 0x20#8).wf = true ∧ (Instr.tokWs 0x0E#8).wf = false := by decide

theorem test_wf_pcDigit : (Instr.pcDigit 9#4).wf = true ∧ (Instr.pcDigit 10#4).wf = false := by decide

theorem test_wf_pcOther : (Instr.pcOther 0x3A#8).wf = true ∧ (Instr.pcOther 0x39#8).wf = false ∧
    (Instr.pcOther 0x2E#8).wf = false ∧ (Instr.pcOther 0x2B#8).wf = false ∧
    (Instr.pcOther 0x2D#8).wf = false := by decide

/-! ### Decoding of words written out from the opcode table -/

theorem test_decode_reset : decodeInput (.word 0b1000000000#10) = .ok .reset ∧
    decodeInput (.word 0b1100001101#10) = .ok .reset := by decide

theorem test_decode_idle : decodeInput (.word 0b0000000000#10) = .ok .idle ∧
    decodeInput (.word 0b0000001101#10) = .ok .idle := by decide

theorem test_decode_feedTerm : decodeInput (.word 0b0100001101#10) = .ok .feedTerm := by decide

theorem test_decode_feedData : decodeInput (.word 0b0100001100#10) = .ok (.feedData 0x0C#8) ∧
    decodeInput (.word 0b0111111111#10) = .ok (.feedData 0xFF#8) := by decide

theorem test_decode_txtTerm : decodeInput (.scanByte 0b00001101#8) = .ok .txtTerm := by decide

theorem test_decode_txtNonAscii :
    decodeInput (.scanByte 0b10000101#8) = .ok (.txtNonAscii 0x85#8) ∧
    decodeInput (.scanByte 0b01111111#8) = .error (.scan 0x7F#8) := by decide

theorem test_decode_tokWs : decodeInput (.textByte 0b00001001#8) = .ok (.tokWs 0x09#8) ∧
    decodeInput (.textByte 0b00001000#8) = .error (.text 0x08#8) := by decide

theorem test_decode_pcDigit : decodeInput (.tokenChar 0b00111001#8) = .ok (.pcDigit 9#4) ∧
    decodeInput (.tokenChar 0b00111010#8) = .ok (.pcOther 0x3A#8) := by decide

theorem test_decode_pcPoint : decodeInput (.tokenChar 0b00101110#8) = .ok .pcPoint := by decide

theorem test_decode_pcPlus : decodeInput (.tokenChar 0b00101011#8) = .ok .pcPlus := by decide

theorem test_decode_pcMinus : decodeInput (.tokenChar 0b00101101#8) = .ok .pcMinus := by decide

theorem test_decode_pcOther : decodeInput (.tokenChar 0b00101100#8) = .ok (.pcOther 0x2C#8) := by decide

/-- One word of each table row, with its width in whole bytes. -/
def rowWords : List (Nat × Nat × Instr) :=
  [(16, 0x200, .reset), (16, 0x000, .idle), (16, 0x10D, .feedTerm), (16, 0x141, .feedData 0x41#8),
   (8, 0x0D, .txtTerm), (8, 0x80, .txtNonAscii 0x80#8), (8, 0x20, .tokWs 0x20#8),
   (8, 0x30, .pcDigit 0#4), (8, 0x2E, .pcPoint), (8, 0x2B, .pcPlus), (8, 0x2D, .pcMinus),
   (8, 0x65, .pcOther 0x65#8)]

theorem test_rows_decode : ∀ r ∈ rowWords, decodeTableWord r.1 r.2.1 = some r.2.2 := by decide

theorem test_rows_run_first : ∀ r ∈ rowWords,
    nextState (step (State.reset.withFetchWord r.1 r.2.1)) = some (after r.2.2 State.reset) := by
  decide

theorem test_words_above_ten_bits_do_not_exist :
    decodeTableWord 16 0x400 = none ∧ decodeTableWord 8 0x100 = none ∧ decodeTableWord 0 0 = none := by
  decide

/-! ### The configuration -/

/-- TCFG meets the constraints; so does the smallest capacity and width (R8, R12). -/
theorem test_config_ok : configOk tcfg = true ∧ configOk { tcfg with capacity := 15 } = true ∧
    configOk { tcfg with wMant := 8 } = true ∧
    configOk { tcfg with annExtra := [19, 31], fieldMap := [⟨16, 0x80#8, .ann (.extra 31)⟩] } = true := by
  decide

/-- One broken constraint each: capacity, width, offset, zero mask, unnamed extra bit, reserved name out
of range or twice, bar mask, bar count, bar bit (R8 to R12). -/
theorem test_config_broken :
    configOk { tcfg with capacity := 14 } = false ∧ configOk { tcfg with wMant := 7 } = false ∧
    configOk { tcfg with fieldMap := [⟨17, 1#8, .pfx .nano⟩] } = false ∧
    configOk { tcfg with fieldMap := [⟨3, 0#8, .pfx .nano⟩] } = false ∧
    configOk { tcfg with fieldMap := [⟨3, 1#8, .ann (.extra 19)⟩] } = false ∧
    configOk { tcfg with annExtra := [18] } = false ∧ configOk { tcfg with annExtra := [20, 20] } = false ∧
    configOk { tcfg with barActive := ⟨6, 0#8⟩ } = false ∧
    configOk { tcfg with barMap := tcfgBar.drop 1 } = false ∧
    configOk { tcfg with barMap := ⟨11, 8, 1⟩ :: tcfgBar.drop 1 } = false := by decide

/-! ### One step of each instruction -/

/-- The example of R117: a partial packet and a record are gone. -/
theorem test_reset_clears : (after .reset publishedA).meas = none ∧
    (after .reset publishedA).measValid = false ∧ (after .reset (holdingAs 64 17)).len = 0 ∧
    memRead (after .reset (holdingAs 64 17)).buf 0 = none := by decide

/-- The example of R63: LEN stays and the strobes fall. -/
theorem test_idle_clears_strobes : (after .idle (holdingAs 64 7)).len = 7 ∧
    publishedA.measStb = true ∧ (after .idle publishedA).measStb = false ∧
    (after .idle publishedA).meas = some recordA := by decide

/-- The example of R61: `BUF[5] = 0x31`, LEN = 6, no strobe. -/
theorem test_feedData_keeps :
    memRead (after (.feedData 0x31#8) (holdingAs 64 5)).buf 5 = some 0x31#8 ∧
    (after (.feedData 0x31#8) (holdingAs 64 5)).len = 6 ∧
    (after (.feedData 0x31#8) (holdingAs 64 5)).ovfStb = false := by decide

/-- F3: the 16th byte is written and discarded. -/
theorem test_feedData_discards : (after (.feedData 0x42#8) (holdingAs 16 15)).len = 0 ∧
    (after (.feedData 0x42#8) (holdingAs 16 15)).ovfStb = true ∧
    memRead (after (.feedData 0x42#8) (holdingAs 16 15)).buf 15 = some 0x42#8 := by decide

/-- F8, L1-1: A is published. -/
theorem test_feedTerm_publishes : publishedA.meas = some recordA ∧ publishedA.len = 0 ∧
    publishedA.measStb = true ∧ publishedA.measValid = true ∧ publishedA.errStb = false := by decide

/-- F2, F1: at the boundary no decode, one byte below it the longest packet. -/
theorem test_feedTerm_boundary : (after .feedTerm (holdingAs 16 15)).ovfStb = true ∧
    (after .feedTerm (holdingAs 16 15)).errStb = false ∧
    (after .feedTerm (holdingAs 16 14)).errCode = 1#3 ∧
    (after .feedTerm (holdingAs 16 14)).errSub = false ∧
    (after .feedTerm (holdingAs 16 14)).ovfStb = false := by decide

/-- R73: the first terminator fixes the length of the tidy packet, a later one does not (D9). -/
theorem test_txtTerm : (after .txtTerm { State.reset with scan := ⟨20, none, false⟩ }).scan
      = ⟨21, some 20, false⟩ ∧
    (after .txtTerm { State.reset with scan := ⟨42, some 20, false⟩ }).scan
      = ⟨43, some 20, false⟩ := by decide

/-- R74: a non-ASCII byte counts before the first terminator only (D6, D11). -/
theorem test_txtNonAscii : (after (.txtNonAscii 0x80#8) { State.reset with scan := ⟨5, none, false⟩ }).scan
      = ⟨6, none, true⟩ ∧
    (after (.txtNonAscii 0xFF#8) { State.reset with scan := ⟨26, some 25, false⟩ }).scan
      = ⟨27, some 25, false⟩ := by decide

/-- R75: white space ends a token, and a second one ends none. -/
theorem test_tokWs :
    (after (.tokWs 0x20#8) { State.reset with toks := ⟨[], [0x41#8, 0x42#8]⟩ }).toks
      = ⟨[[0x41#8, 0x42#8]], []⟩ ∧
    (after (.tokWs 0x09#8) { State.reset with toks := ⟨[[0x41#8]], []⟩ }).toks
      = ⟨[[0x41#8]], []⟩ := by decide

/-- The example of R94, and a digit after the point. -/
theorem test_pcDigit :
    (after (.pcDigit 3#4) { State.reset with parser := ⟨.int, false, true, 12, 0⟩ }).parser
      = ⟨.int, false, true, 123, 0⟩ ∧
    (after (.pcDigit 0#4) { State.reset with parser := ⟨.frac, true, true, 12, 1⟩ }).parser
      = ⟨.frac, true, true, 120, 2⟩ := by decide

/-- R95: the first point opens the fraction, a second one is an error. -/
theorem test_pcPoint : (after .pcPoint (inPhase .start)).parser.ph = .frac ∧
    (after .pcPoint (inPhase .frac)).parser.ph = .err := by decide

/-- R96: '+' at the start, and after a sign. -/
theorem test_pcPlus : (after .pcPlus (inPhase .start)).parser = ⟨.signed, false, false, 0, 0⟩ ∧
    (after .pcPlus (inPhase .signed)).parser.ph = .err := by decide

/-- The example of R96, and a trailing sign. -/
theorem test_pcMinus : (after .pcMinus (inPhase .start)).parser = ⟨.signed, true, false, 0, 0⟩ ∧
    (after .pcMinus (inPhase .int)).parser.ph = .err := by decide

/-- The example of R97. -/
theorem test_pcOther : (after (.pcOther 0x61#8) (inPhase .int)).parser.ph = .err ∧
    (after (.pcOther 0x2C#8) (inPhase .start)).parser.ph = .err := by decide

/-- A byte without a row takes its place at its stage. -/
theorem test_plain_bytes :
    (nextState (step { State.reset with inputs := [.scanByte 0x41#8] })).map (·.scan)
      = some ⟨1, none, false⟩ ∧
    (nextState (step { State.reset with inputs := [.textByte 0x41#8] })).map (·.toks)
      = some ⟨[], [0x41#8]⟩ := by decide

/-- A configuration that breaks a constraint has no meaning (R120). -/
theorem test_broken_config_refused :
    exec .idle (holdingAs 14 0) = .refused .badConfiguration := rfl

/-- LEN outside the index space of BUF (R31), and a cell that holds ⊥ (R15): no reachable state. -/
theorem test_unreachable_faults :
    exec (.feedData 0x41#8) { State.reset with len := 64 } = .fault .bufIndex ∧
    exec .feedTerm { State.reset with len := 3 } = .fault .bufUnwritten := ⟨rfl, rfl⟩

/-! ### Decoder, parser, packed words and stimulus against the vectors -/

theorem test_vector_A : decode tcfg packetA = .ok recordA := rfl

theorem test_vector_B : decode tcfg packetB = .ok recordB := rfl

/-- D2, D5, D6, D8, D13, D14, D15: the seven ways to fail. -/
theorem test_vectors_errors :
    decode tcfg [0x0D#8] = .error .lengthBytes ∧
    decode tcfg (packetA.set 42 0x20#8) = .error .missingTerminator ∧
    decode tcfg (packetA.set 5 0x80#8) = .error .encoding ∧
    decode tcfg ([0x41#8, 0x80#8] ++ List.replicate 40 0x20#8 ++ [0x0D#8]) = .error .encoding ∧
    decode tcfg (List.replicate 42 0x20#8 ++ [0x0D#8]) = .error .lengthTokens ∧
    decode tcfg ([0x41#8, 0x42#8, 0x43#8] ++ List.replicate 39 0x20#8 ++ [0x0D#8])
      = .error .lengthTokens ∧
    decode tcfg packetC = .error .malformedValue := ⟨rfl, rfl, rfl, rfl, rfl, rfl, rfl⟩

/-- D9: a terminator at offset 20 truncates the text, and the flags are still read from the packet. -/
theorem test_vector_D9 : decode tcfg (packetA.set 20 0x0D#8)
    = .ok ⟨12, 0, .kilo, .volt, .dc, none, 0#32, packetA.set 20 0x0D#8, 20⟩ := rfl

/-- G2, G4, S1, B2: last writer, all annunciators, the 'S' glyph, the largest bar graph. -/
theorem test_vectors_fields :
    (decode tcfg (packet7 (noFlags.set 0 0x51#8))).toOption.map (·.pfx) = some .mega ∧
    (decode tcfg (packet7 ((((noFlags.set 4 0x5F#8).set 5 0x5F#8).set 6 0x5F#8).set 7 0x4F#8))).toOption.map
      (·.ann) = some 0x0007FFFF#32 ∧
    (decode tcfg (packet7 (noFlags.set 2 0x46#8))).toOption.map (·.unit) = some .siemens ∧
    (decode tcfg (packet7 ((((noFlags.set 3 0x48#8).set 8 0x5F#8).set 9 0x5F#8).set 10 0x4F#8))).toOption.map
      (·.bar) = some (some 16383) := by decide

/-- P2, P6, P8, P22, P25, P26 and the bounds at `W_MANT = 8`. -/
theorem test_vectors_parse :
    parse 32 (0x2D#8 :: text1234) = some (-1234, 2) ∧
    parse 32 [0x31#8, 0x32#8, 0x2E#8] = some (12, 0) ∧
    parse 32 [0x2D#8, 0x2E#8, 0x35#8] = some (-5, 1) ∧
    parse 32 [0x2B#8] = none ∧ parse 32 [0x2D#8, 0x2E#8] = none ∧
    parse 32 [0x2B#8, 0x2D#8, 0x31#8] = none ∧
    parse 8 [0x31#8, 0x32#8, 0x37#8] = some (127, 0) ∧ parse 8 [0x31#8, 0x32#8, 0x38#8] = none ∧
    parse 8 [0x2D#8, 0x31#8, 0x32#8, 0x38#8] = some (-128, 0) ∧
    parse 8 [0x2D#8, 0x31#8, 0x32#8, 0x39#8] = none := by decide

/-- The packed words of A and B, words 0, 1, 3, 4 and 14. -/
theorem test_packed_words : [0, 1, 3, 4, 14].map (packedWord recordA)
      = [0x4200013C#32, 0x000004D2#32, 0x0000002A#32, 0x484D4D44#32, 0x000D2020#32] ∧
    [0, 1, 2].map (packedWord recordB) = [0x430FA3C3#32, 0xFFFFFF83#32, 0x00000009#32] := by decide

/-- R58, on lines of the programs of §7. -/
theorem test_stimulus_lines :
    readLine "RESET                       ; 0x200".toList = some [.reset] ∧
    readLine "IDLE 5".toList = some [.idles 5] ∧ readLine "FEED 0x0D".toList = some [.feed 0x0D#8] ∧
    readLine "FEED 'A'".toList = some [.feed 0x41#8] ∧
    readLine "FEEDS \" 1.0\\r\"".toList = some [.feeds [0x20#8, 0x31#8, 0x2E#8, 0x30#8, 0x0D#8]] ∧
    readLine "FEEDX 44 4D".toList = some [.feedx [0x44#8, 0x4D#8]] ∧
    readLine "REPEAT 63 FEED 0x41".toList = some [.repeatFeed 63 0x41#8] ∧
    readLine "; none".toList = some [] ∧ readLine "FEED 0x1".toList = none := by decide

/-! ### Witnesses: states and operands that meet the hypotheses of each statement -/

/-- A cell that no entry lists holds no value. -/
theorem memRead_none {m : Memory} {a : Nat} (h : ∀ c ∈ m, c.1 < a) : memRead m a = none := by
  induction m with
  | nil => rfl
  | cons c rest ih =>
    obtain ⟨k, v⟩ := c
    have hk : k < a := h (k, v) (by simp)
    rw [memRead, if_neg (by omega)]
    exact ih fun c hc => h c (by simp [hc])

/-- A cell read as in a list of the first `n` cells holds a byte that is no terminator. -/
theorem written_of_map {s : State} {i : Nat} (h : (memRead s.buf i).map isTerm = some false) :
    ∃ b, memRead s.buf i = some b ∧ isTerm b = false := by
  simpa using h

/-- The state with A up to its terminator in BUF meets the invariant, its last cell and the boundary of
its buffer among the clauses. -/
theorem test_inv_partial : BlockInv (beforeTerm packetA) := by
  have h1 : ∀ c ∈ (beforeTerm packetA).buf, c.1 < 64 := by decide
  have h2 : ∀ i, i < 42 → (memRead (beforeTerm packetA).buf i).map isTerm = some false := by decide
  refine ⟨by decide, by decide, fun a ha => memRead_none fun c hc => ?_, by decide,
    fun i hi => written_of_map (h2 i hi), by decide, ?_, ?_, ?_⟩
  · exact Nat.lt_of_lt_of_le (h1 c hc) ha
  · intro m hm; cases hm
  · unfold StrobesExclusive; decide
  · unfold ErrorOutputsOk; decide

/-- The state that has published A meets the invariant. -/
theorem test_inv_published : BlockInv publishedA := by
  have h1 : ∀ c ∈ publishedA.buf, c.1 < 64 := by decide
  have h2 : publishedA.meas = some recordA := by decide
  have h3 : ∀ i, i < 42 → isTerm (recordA.raw.getD i 0#8) = false ∧
      isAscii (recordA.raw.getD i 0#8) = true := by decide
  refine ⟨by decide, by decide, fun a ha => memRead_none fun c hc => ?_, by decide,
    fun i hi => absurd hi (by rw [show publishedA.len = 0 by decide]; omega), by decide, ?_, ?_, ?_⟩
  · exact Nat.lt_of_lt_of_le (h1 c hc) ha
  · intro m hm
    rw [h2, Option.some.injEq] at hm
    subst hm
    exact ⟨rfl, rfl, h3⟩
  · unfold StrobesExclusive; decide
  · unfold ErrorOutputsOk; decide

theorem test_witness_DecodeOfEncode : (Instr.feedData 0xFF#8).wf = true ∧
    (Instr.txtNonAscii 0x80#8).wf = true ∧ (Instr.tokWs 0x0D#8).wf = true ∧
    (Instr.pcDigit 9#4).wf = true ∧ (Instr.pcOther 0xFF#8).wf = true ∧ Instr.reset.wf = true := by
  decide

theorem test_witness_DecodedInput : decodeInput (.word 0x3FF#10) = .ok .reset ∧
    decodeInput (.word 0x0FF#10) = .ok .idle ∧ decodeInput (.tokenChar 0x39#8) = .ok (.pcDigit 9#4) := by
  decide

theorem test_witness_TokenCharacter : packetA.length = 43 ∧ packetA[42]? = some 0x0D#8 ∧
    nonAsciiInSpan packetA = false ∧ (tokenize (tidyOf packetA)).length = 2 := by decide

/-- The words of R63 and R117 with every ignored bit set. -/
theorem test_witness_ResetAndIdleWords : (0x3FF#10).getLsbD 9 = true ∧
    (0x0FF#10).getLsbD 9 = false ∧ (0x0FF#10).getLsbD 8 = false ∧ configOk State.reset.cfg = true := by
  decide

theorem test_witness_StepRuns :
    decodeInput (.word 0x1FF#10) = .ok (.feedData 0xFF#8) ∧
    (State.reset.withFetchWord 16 0x1FF).inputs = .word 0x1FF#10 :: [] ∧ State.reset.inputs = [] ∧
    decodeInput (.scanByte 0x7F#8) = .error (.scan 0x7F#8) ∧
    decodeInput (.textByte 0x21#8) = .error (.text 0x21#8) ∧ configOk State.reset.cfg = true := by
  decide

/-- The smallest admitted capacity, and a state under TCFG that is not the reset state. -/
theorem test_witness_ResetState : configOk (holdingAs 15 14).cfg = true ∧
    publishedA.cfg = State.reset.cfg ∧ publishedA.inputs = [] ∧ publishedA ≠ State.reset := by decide

theorem test_witness_StepKeepsTheInvariant :
    BlockInv (beforeTerm packetA) ∧ step (beforeTerm packetA) = .next (after .idle (beforeTerm packetA)) :=
  ⟨test_inv_partial, exec_after (i := .idle) (s := beforeTerm packetA) (by decide)⟩

theorem test_witness_StepKeepsTheConfiguration :
    step (State.reset.withFetchWord 16 0x200) = .next (after .reset State.reset) :=
  exec_after (i := .reset) (s := State.reset) (by decide)

/-- A capacity below 15, and an extra bit listed twice (log entry 7). -/
theorem test_witness_BrokenConfiguration : ¬ConfigConstraint { tcfg with capacity := 14 } ∧
    ¬ConfigConstraint { tcfg with annExtra := [20, 20] } :=
  ⟨fun h => absurd h.1 (by decide), fun h => absurd h.2.2.2.1 (by decide)⟩

theorem test_witness_FeedData :
    ((holdingAs 16 0).len < 16 ∧ (holdingAs 16 14).len < 16 ∧ (holdingAs 16 15).len = 16 - 1) ∧
    configOk (holdingAs 16 15).cfg = true ∧ isTerm 0x0C#8 = false := by decide

/-- The list a state of `holding` has in its buffer. -/
theorem holds_holding (cap : Nat) (q : List Byte)
    (h : ∀ i, i < q.length → memRead (bufOf q) i = q[i]?) : HoldsPacket (holding cap q) q :=
  ⟨rfl, h⟩

theorem test_witness_FeedTerm :
    (HoldsPacket (beforeTerm packetA) (packetA.take 42) ∧
      decode tcfg (packetA.take 42 ++ [0x0D#8]) = .ok recordA) ∧
    (HoldsPacket (beforeTerm packetC) (packetC.take 42) ∧
      decode tcfg (packetC.take 42 ++ [0x0D#8]) = .error .malformedValue) ∧
    HoldsPacket (holdingAs 16 0) [] ∧ HoldsPacket (holdingAs 16 15) (List.replicate 15 0x41#8) ∧
    configOk (holdingAs 16 15).cfg = true :=
  ⟨⟨holds_holding _ _ (by decide), rfl⟩, ⟨holds_holding _ _ (by decide), rfl⟩,
    holds_holding _ _ (by decide), holds_holding _ _ (by decide), by decide⟩

theorem test_witness_FeedAtTheBoundary : configOk (holdingAs 15 14).cfg = true ∧
    (holdingAs 15 14).len = (holdingAs 15 14).cfg.capacity - 1 ∧ isTerm 0x0E#8 = false := by decide

theorem test_witness_FeedWrites :
    exec (.feedData 0x41#8) (holdingAs 16 15) = .next (after (.feedData 0x41#8) (holdingAs 16 15)) ∧
    exec .feedTerm (holdingAs 16 15) = .next (after .feedTerm (holdingAs 16 15)) ∧
    exec .reset (holdingAs 16 15) = .next (after .reset (holdingAs 16 15)) ∧
    exec .idle (holdingAs 16 15) = .next (after .idle (holdingAs 16 15)) :=
  ⟨exec_after (by decide), exec_after (by decide), exec_after (by decide), exec_after (by decide)⟩

theorem test_witness_LenStaysInRange :
    exec (.feedData 0x41#8) (holdingAs 16 14) = .next (after (.feedData 0x41#8) (holdingAs 16 14)) ∧
    exec (.feedData 0x41#8) (holdingAs 16 15) = .next (after (.feedData 0x41#8) (holdingAs 16 15)) ∧
    exec .feedTerm (holdingAs 16 15) = .next (after .feedTerm (holdingAs 16 15)) ∧
    exec .reset (holdingAs 16 15) = .next (after .reset (holdingAs 16 15)) ∧
    exec .pcPoint (holdingAs 16 15) = .next (after .pcPoint (holdingAs 16 15)) ∧
    (holdingAs 16 15).len < (holdingAs 16 15).cfg.capacity :=
  ⟨exec_after (by decide), exec_after (by decide), exec_after (by decide), exec_after (by decide),
    exec_after (by decide), by decide⟩

theorem test_witness_PublicationNeedsCapacity44 :
    exec .feedTerm (holding 44 (packetA.take 42)) = .next (after .feedTerm (holding 44 (packetA.take 42))) ∧
    (after .feedTerm (holding 44 (packetA.take 42))).measStb = true ∧
    configOk (holdingAs 15 0).cfg = true :=
  ⟨exec_after (by decide), by decide, by decide⟩

theorem test_witness_OnlyASuccessfulDecodePublishes :
    (exec .feedTerm (beforeTerm packetA) = .next publishedA ∧ publishedA.measStb = true ∧
      bufRead 43 publishedA = .ok packetA ∧ (beforeTerm packetA).len = 42) ∧
    (exec .feedTerm (holdingAs 64 0) = .next (after .feedTerm (holdingAs 64 0)) ∧
      (after .feedTerm (holdingAs 64 0)).measStb = false) :=
  ⟨⟨exec_after (by decide), by decide, rfl, by decide⟩, exec_after (by decide), by decide⟩

theorem test_witness_MeasValid :
    (runWords [0x10D#10] (beforeTerm packetA) = some publishedA ∧
      (beforeTerm packetA).measValid = false ∧ isResetWord 0x10D#10 = false) ∧
    (runWords [0x0FF#10] (holdingAs 64 3) = some (after .idle (holdingAs 64 3))) ∧
    exec .reset publishedA = .next (after .reset publishedA) ∧
    (exec .feedTerm publishedA = .next (after .feedTerm publishedA) ∧
      (after .feedTerm publishedA).errStb = true) :=
  ⟨by decide, by decide, exec_after (by decide), exec_after (by decide), by decide⟩

theorem test_witness_ErrorEvent :
    exec .feedTerm publishedA = .next (after .feedTerm publishedA) ∧
    (after .feedTerm publishedA).errStb = true ∧ publishedA.len ≠ publishedA.cfg.capacity - 1 ∧
    bufRead 1 (after .feedTerm publishedA) = .ok [0x0D#8] ∧
    decode publishedA.cfg [0x0D#8] = .error .lengthBytes :=
  ⟨exec_after (by decide), by decide, by decide, rfl, rfl⟩

theorem test_witness_ErrorOutputs :
    (exec .feedTerm (beforeTerm packetC) = .next (after .feedTerm (beforeTerm packetC)) ∧
      (after .feedTerm (beforeTerm packetC)).errStb = true) ∧
    (exec .feedTerm (beforeTerm packetA) = .next publishedA ∧ publishedA.errStb = false) :=
  ⟨⟨exec_after (by decide), by decide⟩, exec_after (by decide), by decide⟩

/-- With the token layout's sub-code: 42 spaces (D13). -/
theorem test_witness_ErrorCodes :
    exec .feedTerm (holding 64 (List.replicate 42 0x20#8))
      = .next (after .feedTerm (holding 64 (List.replicate 42 0x20#8))) ∧
    (after .feedTerm (holding 64 (List.replicate 42 0x20#8))).errSub = true :=
  ⟨exec_after (by decide), by decide⟩

theorem test_witness_AtMostOneEvent :
    exec (.feedData 0x41#8) (holdingAs 16 15) = .next (after (.feedData 0x41#8) (holdingAs 16 15)) ∧
    exec (.pcDigit 9#4) (holdingAs 16 15) = .next (after (.pcDigit 9#4) (holdingAs 16 15)) :=
  ⟨exec_after (by decide), exec_after (by decide)⟩

theorem test_witness_FramerPath : BlockInv (beforeTerm packetA) ∧
    step ((beforeTerm packetA).withFetchWord 16 0x10D) = .next publishedA ∧
    publishedA.measStb = true ∧ publishedA.meas = some recordA :=
  ⟨test_inv_partial, exec_after (i := .feedTerm) (by decide), by decide, by decide⟩

theorem test_witness_BlockRefines : configOk (holdingAs 16 15).cfg = true ∧
    (holdingAs 16 15).len < (holdingAs 16 15).cfg.capacity ∧
    HoldsPacket (holdingAs 16 15) (List.replicate 15 0x41#8) :=
  ⟨by decide, by decide, holds_holding _ _ (by decide)⟩

/-- The empty packet and the longest one. -/
theorem test_witness_FedBytes : configOk (holdingAs 16 0).cfg = true ∧ (holdingAs 16 0).len = 0 ∧
    (∀ b ∈ List.replicate 14 0x41#8, isTerm b = false) ∧
    (List.replicate 14 0x41#8).length + 2 ≤ (holdingAs 16 0).cfg.capacity ∧
    ([] : List Byte).length + 2 ≤ (holdingAs 16 0).cfg.capacity := by decide

/-- Length 43 with and without the terminator, and lengths 42 and 44. -/
theorem test_witness_LengthThenTerminator : packetA.length = 43 ∧
    (packetA.set 42 0x20#8).length = 43 ∧ (packetA.set 42 0x20#8)[42]? ≠ some 0x0D#8 ∧
    (packetA.drop 1).length ≠ 43 ∧ (0x20#8 :: packetA).length ≠ 43 := by decide

/-- First terminator at 42, at 20 (D9) and at 0 (D12). -/
theorem test_witness_FirstTerminator : packetA.length = 43 ∧ packetA[42]? = some 0x0D#8 ∧
    tidyLength packetA = 42 ∧ (packetA.set 20 0x0D#8)[42]? = some 0x0D#8 ∧
    tidyLength (packetA.set 20 0x0D#8) = 20 ∧ tidyLength (packetA.set 0 0x0D#8) = 0 := by decide

theorem test_witness_NonAscii : (packetA.set 41 0x80#8).length = 43 ∧
    (packetA.set 41 0x80#8)[42]? = some 0x0D#8 ∧ 41 < tidyLength (packetA.set 41 0x80#8) ∧
    (packetA.set 41 0x80#8)[41]? = some 0x80#8 := by decide

theorem test_witness_Tokens : (∀ b ∈ [0x09#8, 0x20#8], isWs b = true) ∧
    (∀ b ∈ text1234, isWs b = false) ∧ text1234 ≠ [] ∧
    (∀ b, ([] : List Byte).head? = some b → isWs b = true) ∧
    (∀ b, [0x20#8, 0x41#8].head? = some b → isWs b = true) :=
  ⟨by decide, by decide, by decide, by simp, by simp [isWs]⟩

/-- A span that the ASCII check passes, from the scan. -/
theorem span_ascii {p : List Byte} {k : Nat} (hk : tidyLength p = k)
    (h : ∀ i, i < k → (p[i]?).all (fun b => decide (b.toNat ≤ 0x7F)) = true) :
    ∀ i b, i < tidyLength p → p[i]? = some b → b.toNat ≤ 0x7F := by
  intro i b hi hb
  have := h i (hk ▸ hi)
  rw [hb] at this
  simpa using this

/-- 42 spaces have no token, and A has two. -/
theorem test_witness_FewerThanTwoTokens :
    (List.replicate 42 0x20#8 ++ [0x0D#8]).length = 43 ∧
    (List.replicate 42 0x20#8 ++ [0x0D#8])[42]? = some 0x0D#8 ∧
    (∀ i b, i < tidyLength (List.replicate 42 0x20#8 ++ [0x0D#8]) →
      (List.replicate 42 0x20#8 ++ [0x0D#8])[i]? = some b → b.toNat ≤ 0x7F) ∧
    (∀ i b, i < tidyLength packetA → packetA[i]? = some b → b.toNat ≤ 0x7F) ∧
    (tokenize (tidyOf (List.replicate 42 0x20#8 ++ [0x0D#8]))).length < 2 ∧
    ¬(tokenize (tidyOf packetA)).length < 2 :=
  ⟨by decide, by decide, span_ascii (k := 42) (by decide) (by decide),
    span_ascii (k := 42) (by decide) (by decide), by decide, by decide⟩

theorem test_witness_SecondToken :
    (packetA.length = 43 ∧ packetA[42]? = some 0x0D#8 ∧
      (∀ i b, i < tidyLength packetA → packetA[i]? = some b → b.toNat ≤ 0x7F) ∧
      tokenize (tidyOf packetA) = packetA.take 17 :: text1234 :: [] ∧
      parse 32 text1234 = some (1234, 2)) ∧
    (packetC.length = 43 ∧ packetC[42]? = some 0x0D#8 ∧
      (∀ i b, i < tidyLength packetC → packetC[i]? = some b → b.toNat ≤ 0x7F) ∧
      tokenize (tidyOf packetC) = packetC.take 17 :: (packetC.drop 18).take 5 :: [] ∧
      parse 32 ((packetC.drop 18).take 5) = none) :=
  ⟨⟨by decide, by decide, span_ascii (k := 42) (by decide) (by decide), by decide, by decide⟩,
    by decide, by decide, span_ascii (k := 42) (by decide) (by decide), by decide, by decide⟩

/-- The chain of §4: each clause's packet fails its own stage and passes the ones before. -/
theorem test_witness_FirstFailing :
    (packetA.drop 1).length ≠ 43 ∧ (packetA.set 42 0x20#8).getD 42 0#8 ≠ 0x0D#8 ∧
    nonAsciiInSpan (packetC.set 30 0xFF#8) = true ∧
    (tokenize (tidyOf (packetA.set 10 0x0D#8))).length < 2 ∧
    parse 32 ((tokenize (tidyOf packetC)).getD 1 []) = none ∧
    parse 32 ((tokenize (tidyOf packetA)).getD 1 []) = some (1234, 2) := by decide

/-- The example of R78: 0x48 has every bit of 0x08 and not every bit of 0x18. -/
theorem test_witness_FieldTest : packetA[3]? = some 0x48#8 ∧
    fieldTest packetA ⟨3, 0x08#8, .pfx .kilo⟩ = true ∧
    fieldTest packetA ⟨3, 0x18#8, .pfx .kilo⟩ = false := by decide

/-- An entry that writes no prefix is no true PREFIX entry. -/
theorem not_writesPfx {p : List Byte} {e : FieldEntry} (h : pfxWrite p e = none) : ¬WritesPfx p e := by
  rintro ⟨⟨v, hv⟩, ht⟩
  simp [pfxWrite, hv, ht] at h

/-- An entry that writes no unit is no true UNIT entry. -/
theorem not_writesUnit {p : List Byte} {e : FieldEntry} (h : unitWrite p false e = none) :
    ¬WritesUnit p e := by
  rintro ⟨⟨v, hv⟩, ht⟩
  simp [unitWrite, hv, ht] at h

/-- An entry that writes no type is no true TYPE entry. -/
theorem not_writesType {p : List Byte} {e : FieldEntry} (h : mtypeWrite p e = none) :
    ¬WritesType p e := by
  rintro ⟨⟨v, hv⟩, ht⟩
  simp [mtypeWrite, hv, ht] at h

/-- G1 has no true PREFIX entry; in G2 the fifth entry is the last one. -/
theorem test_witness_Prefix :
    ((decode tcfg (packet7 noFlags)).toBool = true ∧
      ∀ e ∈ tcfg.fieldMap, ¬WritesPfx (packet7 noFlags) e) ∧
    (decode tcfg (packet7 (noFlags.set 0 0x51#8))).toBool = true ∧
    IsLastWriter tcfg.fieldMap (WritesPfx (packet7 (noFlags.set 0 0x51#8))) ⟨3, 0x10#8, .pfx .mega⟩ := by
  have h1 : ∀ e ∈ tcfg.fieldMap, pfxWrite (packet7 noFlags) e = none := by decide
  have h2 : ∀ e ∈ tcfg.fieldMap.drop 5, pfxWrite (packet7 (noFlags.set 0 0x51#8)) e = none := by decide
  exact ⟨⟨by decide, fun e he => not_writesPfx (h1 e he)⟩, by decide, tcfg.fieldMap.take 4,
    tcfg.fieldMap.drop 5, by decide, ⟨⟨_, rfl⟩, by decide⟩, fun e he => not_writesPfx (h2 e he)⟩

/-- A packet of the builder with the flag of TCFG's entry `k` alone. -/
def soleFlag (k : Nat) : List Byte :=
  match tcfgGroups[k]? with
  | some e => packet7 (noFlags.set (e.offset - 3) (0x40#8 ||| e.mask))
  | none => packet7 noFlags

/-- An entry of TCFG's groups is the last writer where it writes and no entry after it does. -/
theorem isLastWriter_group {k : Nat} {e : FieldEntry} {writes : FieldEntry → Prop}
    (he : tcfgGroups[k]? = some e) (hw : writes e)
    (ha : ∀ e' ∈ tcfg.fieldMap.drop (k + 1), ¬writes e') : IsLastWriter tcfg.fieldMap writes e := by
  obtain ⟨hk, hg⟩ := List.getElem?_eq_some_iff.mp he
  have hm : k < tcfg.fieldMap.length := by simp only [tcfg, List.length_append]; omega
  have hx : tcfg.fieldMap[k] = e := by simpa [tcfg, List.getElem_append_left hk] using hg
  exact ⟨tcfg.fieldMap.take k, tcfg.fieldMap.drop (k + 1), by
    rw [← hx, List.getElem_cons_drop, List.take_append_drop], hw, ha⟩

/-- Entries 1 to 5 of TCFG write the five prefixes: with its flag alone, each is the last true one. -/
theorem test_witness_Prefix_values :
    (tcfgGroups.take 5).map (·.target)
      = [.pfx .nano, .pfx .micro, .pfx .milli, .pfx .kilo, .pfx .mega] ∧
    ∀ k, k < 5 → (decode tcfg (soleFlag k)).toBool = true ∧
      ∃ e, tcfgGroups[k]? = some e ∧ IsLastWriter tcfg.fieldMap (WritesPfx (soleFlag k)) e := by
  have h1 : ∀ k, k < 5 → ∀ e ∈ tcfg.fieldMap.drop (k + 1), pfxWrite (soleFlag k) e = none := by decide
  refine ⟨by decide, fun k hk => ⟨by revert k; decide, ?_⟩⟩
  have h3 : ∀ e, tcfgGroups[k]? = some e → WritesPfx (soleFlag k) e →
      IsLastWriter tcfg.fieldMap (WritesPfx (soleFlag k)) e :=
    fun e he hw => isLastWriter_group he hw fun e' he' => not_writesPfx (h1 k hk e' he')
  interval_cases k <;> exact ⟨_, rfl, h3 _ rfl ⟨⟨_, rfl⟩, by decide⟩⟩

/-- Entries 6 to 13 of TCFG write the seven plain units and the 'S' glyph. -/
theorem test_witness_Unit_values :
    ((tcfgGroups.drop 5).take 8).map (·.target)
      = [.unit .hertz, .unit .degF, .unit .degC, .unit .ohm, .unit .ampere, .unit .farad,
        .unit .volt, .unit .sGlyph] ∧
    ∀ k, 5 ≤ k → k < 13 → (decode tcfg (soleFlag k)).toBool = true ∧
      ∃ e, tcfgGroups[k]? = some e ∧ IsLastWriter tcfg.fieldMap (WritesUnit (soleFlag k)) e := by
  have h1 : ∀ k, k < 13 → 5 ≤ k → ∀ e ∈ tcfg.fieldMap.drop (k + 1),
      unitWrite (soleFlag k) false e = none := by decide
  have h2 : ∀ k, k < 13 → (decode tcfg (soleFlag k)).toBool = true := by decide
  refine ⟨by decide, fun k h5 hk => ⟨h2 k hk, ?_⟩⟩
  have h3 : ∀ e, tcfgGroups[k]? = some e → WritesUnit (soleFlag k) e →
      IsLastWriter tcfg.fieldMap (WritesUnit (soleFlag k)) e :=
    fun e he hw => isLastWriter_group he hw fun e' he' => not_writesUnit (h1 k hk h5 e' he')
  interval_cases k <;> exact ⟨_, rfl, h3 _ rfl ⟨⟨_, rfl⟩, by decide⟩⟩

/-- Entries 14 to 16 of TCFG write the three types. -/
theorem test_witness_Type_values :
    (tcfgGroups.drop 13).map (·.target) = [.type .ac, .type .dc, .type .pw] ∧
    ∀ k, 13 ≤ k → k < 16 → (decode tcfg (soleFlag k)).toBool = true ∧
      ∃ e, tcfgGroups[k]? = some e ∧ IsLastWriter tcfg.fieldMap (WritesType (soleFlag k)) e := by
  have h1 : ∀ k, k < 16 → 13 ≤ k → ∀ e ∈ tcfg.fieldMap.drop (k + 1),
      mtypeWrite (soleFlag k) e = none := by decide
  have h2 : ∀ k, k < 16 → 13 ≤ k → (decode tcfg (soleFlag k)).toBool = true := by decide
  refine ⟨by decide, fun k h13 hk => ⟨h2 k hk h13, ?_⟩⟩
  have h3 : ∀ e, tcfgGroups[k]? = some e → WritesType (soleFlag k) e →
      IsLastWriter tcfg.fieldMap (WritesType (soleFlag k)) e :=
    fun e he hw => isLastWriter_group he hw fun e' he' => not_writesType (h1 k hk h13 e' he')
  interval_cases k <;> exact ⟨_, rfl, h3 _ rfl ⟨⟨_, rfl⟩, by decide⟩⟩

/-- G1 has no true UNIT entry; A has VOLT; S1 has the 'S' glyph without PW, S2 with it. -/
theorem test_witness_Unit :
    (∀ e ∈ tcfg.fieldMap, ¬WritesUnit (packet7 noFlags) e) ∧
    (decode tcfg packetA = .ok recordA ∧
      IsLastWriter tcfg.fieldMap (WritesUnit packetA) ⟨5, 0x02#8, .unit .volt⟩) ∧
    ((decode tcfg (packet7 (noFlags.set 2 0x46#8))).toBool = true ∧
      IsLastWriter tcfg.fieldMap (WritesUnit (packet7 (noFlags.set 2 0x46#8))) ⟨5, 0x04#8, .unit .sGlyph⟩ ∧
      pulseWidth tcfg.fieldMap (packet7 (noFlags.set 2 0x46#8)) = false) ∧
    (decode tcfg (packet7 ((noFlags.set 2 0x44#8).set 3 0x45#8))).toBool = true ∧
    IsLastWriter tcfg.fieldMap (WritesUnit (packet7 ((noFlags.set 2 0x44#8).set 3 0x45#8)))
      ⟨5, 0x04#8, .unit .sGlyph⟩ ∧
    fieldTest (packet7 ((noFlags.set 2 0x44#8).set 3 0x45#8)) ⟨6, 0x04#8, .type .pw⟩ = true := by
  have h1 : ∀ e ∈ tcfg.fieldMap, unitWrite (packet7 noFlags) false e = none := by decide
  have h2 : ∀ e ∈ tcfg.fieldMap.drop 12, unitWrite packetA false e = none := by decide
  have h3 : ∀ e ∈ tcfg.fieldMap.drop 13,
      unitWrite (packet7 (noFlags.set 2 0x46#8)) false e = none := by decide
  have h4 : ∀ e ∈ tcfg.fieldMap.drop 13,
      unitWrite (packet7 ((noFlags.set 2 0x44#8).set 3 0x45#8)) false e = none := by decide
  exact ⟨fun e he => not_writesUnit (h1 e he),
    ⟨rfl, tcfg.fieldMap.take 11, _, by decide, ⟨⟨_, rfl⟩, by decide⟩,
      fun e he => not_writesUnit (h2 e he)⟩,
    ⟨by decide, ⟨tcfg.fieldMap.take 12, _, by decide, ⟨⟨_, rfl⟩, by decide⟩,
      fun e he => not_writesUnit (h3 e he)⟩, by decide⟩,
    by decide, ⟨tcfg.fieldMap.take 12, _, by decide, ⟨⟨_, rfl⟩, by decide⟩,
      fun e he => not_writesUnit (h4 e he)⟩, by decide⟩

/-- G1 has no true TYPE entry; in G3 (AC and PW) the PW entry is the last one. -/
theorem test_witness_Type :
    (∀ e ∈ tcfg.fieldMap, ¬WritesType (packet7 noFlags) e) ∧
    (decode tcfg (packet7 (noFlags.set 3 0x45#8))).toBool = true ∧
    IsLastWriter tcfg.fieldMap (WritesType (packet7 (noFlags.set 3 0x45#8))) ⟨6, 0x04#8, .type .pw⟩ := by
  have h1 : ∀ e ∈ tcfg.fieldMap, mtypeWrite (packet7 noFlags) e = none := by decide
  have h2 : ∀ e ∈ tcfg.fieldMap.drop 16, mtypeWrite (packet7 (noFlags.set 3 0x45#8)) e = none := by
    decide
  exact ⟨fun e he => not_writesType (h1 e he), by decide, tcfg.fieldMap.take 15, _, by decide,
    ⟨⟨_, rfl⟩, by decide⟩, fun e he => not_writesType (h2 e he)⟩

/-- B has its bar graph, A has none, B2 has the largest. -/
theorem test_witness_BarGraph : configOk tcfg = true ∧ decode tcfg packetB = .ok recordB ∧
    recordB.bar = some 1000 ∧ decode tcfg packetA = .ok recordA ∧ recordA.bar = none :=
  ⟨by decide, rfl, rfl, rfl, rfl⟩

theorem test_witness_Annunciators : configOk tcfg = true ∧ decode tcfg packetB = .ok recordB ∧
    recordB.ann.getLsbD 3 = true ∧ 19 ∉ tcfg.annExtra ∧ 31 ∉ tcfg.annExtra :=
  ⟨by decide, rfl, by decide, by decide, by decide⟩

/-- Two states with the same packet in BUF and different records in MEAS. -/
theorem test_witness_PublishedRecord :
    exec .feedTerm (beforeTerm packetA) = .next publishedA ∧
    exec .feedTerm { beforeTerm packetA with meas := some recordB, measValid := true }
      = .next (after .feedTerm { beforeTerm packetA with meas := some recordB, measValid := true }) ∧
    publishedA.measStb = true := ⟨exec_after (by decide), exec_after (by decide), by decide⟩

/-- V2, the negative bound, and the largest scale a packet holds: a one-byte first token and 39
fraction digits. -/
theorem test_witness_RecordRanges :
    (decode tcfg (packet (noFlags.set 1 0x44#8)
      [0x2D#8, 0x32#8, 0x31#8, 0x34#8, 0x37#8, 0x34#8, 0x38#8, 0x33#8, 0x36#8, 0x34#8, 0x38#8])).toOption.map
      (·.mant) = some (-2147483648) ∧
    (decode tcfg ([0x41#8, 0x20#8, 0x2E#8] ++ List.replicate 39 0x30#8 ++ [0x0D#8])).toOption.map
      (·.scale) = some 39 := by decide

/-- Each phase, each digit bound, each sign. -/
theorem test_witness_ParserRows : configOk (inPhase .start).cfg = true ∧
    (inPhase .start).parser.ph = .start ∧ (inPhase .signed).parser.ph = .signed ∧
    (inPhase .int).parser.ph = .int ∧ (inPhase .frac).parser.ph = .frac ∧
    (inPhase .err).parser.ph = .err ∧ (9#4).toNat ≤ 9 := by decide

theorem test_witness_SignTransition :
    (Instr.pcPlus = .pcPlus ∧ false = false) ∧ (Instr.pcMinus = .pcMinus ∧ true = true) ∧
    configOk (inPhase .start).cfg = true := by decide

theorem test_witness_TextClasses : configOk State.reset.cfg = true ∧ isAscii 0x80#8 = false ∧
    isWs 0x20#8 = true := by decide

theorem test_witness_ErrorPhase : (inPhase .err).parser.ph = .err ∧
    exec (decodeChar 0x39#8) (inPhase .err) = .next (after (.pcDigit 9#4) (inPhase .err)) :=
  ⟨by decide, exec_after (i := .pcDigit 9#4) (by decide)⟩

/-- The bound itself and one past it, at the narrowest width. -/
theorem test_witness_Grammar :
    DecimalToken [0x2D#8, 0x31#8, 0x32#8, 0x38#8] [0x2D#8] [0x31#8, 0x32#8, 0x38#8] [] [] ∧
    decimalValue [0x31#8, 0x32#8, 0x38#8] ≤ 2 ^ (8 - 1) ∧
    ¬decimalValue [0x31#8, 0x32#8, 0x38#8] ≤ 2 ^ (8 - 1) - 1 := by
  refine ⟨⟨rfl, .inr (.inr rfl), ?_, by simp, .inr ⟨rfl, rfl⟩, by decide⟩, by decide, by decide⟩
  unfold IsDigitChar
  decide

/-- R99's own pairs: "12.340" and "12.34" parse to different pairs of one number, and "-0" to 0. -/
theorem test_witness_PrimaryValue :
    parse 32 (text1234 ++ [0x30#8]) = some (12340, 3) ∧ parse 32 text1234 = some (1234, 2) ∧
    primaryNumber 12340 3 = primaryNumber 1234 2 ∧ parse 32 [0x2D#8, 0x30#8] = some (0, 0) :=
  ⟨by decide, by decide, by norm_num [primaryNumber], by decide⟩

/-- The narrowest width, where three digits overflow (§6). -/
theorem test_witness_Bounded : (8 : Nat) ≤ 8 ∧ boundedParse 8 [0x31#8, 0x32#8, 0x38#8] = none ∧
    boundedParse 8 [0x2D#8, 0x31#8, 0x32#8, 0x38#8] = some (-128, 0) := by decide

theorem test_witness_SteppingAToken :
    configOk State.reset.cfg = true ∧ State.reset.parser = Parser.init ∧
    { State.reset with inputs := text1234.map Input.tokenChar }.inputs
      = text1234.map Input.tokenChar ++ [] := by decide

theorem test_witness_SteppingAPacket :
    { State.reset with inputs := packetA.map Input.scanByte ++ (tidyOf packetA).map Input.textByte }.inputs
      = packetA.map Input.scanByte ++ (tidyOf packetA).map Input.textByte ∧ configOk State.reset.cfg = true ∧ State.reset.scan = Scan.init ∧ State.reset.toks = Tokens.init ∧
    packetA.length = 43 ∧ packetA[42]? = some 0x0D#8 := by decide

theorem test_witness_UnitsAndBlock :
    configOk publishedA.cfg = true ∧
    (exec .feedTerm (beforeTerm packetA) = .next publishedA ∧ encode .feedTerm = .word 0x10D#10) ∧
    exec .pcPoint publishedA = .next (after .pcPoint publishedA) ∧
    encode .pcPoint = .tokenChar 0x2E#8 :=
  ⟨by decide, ⟨exec_after (by decide), rfl⟩, exec_after (by decide), rfl⟩

theorem test_witness_ReadBeforePublication : State.reset.measValid = false ∧ BlockInv publishedA ∧
    publishedA.measValid = true := ⟨rfl, test_inv_published, by decide⟩

theorem test_witness_PackedWords :
    (publishedA.cfg.wMant ≤ 32 ∧ publishedA.measValid = true ∧ publishedA.meas = some recordA ∧
      recordA.scale < 64 ∧ recordA.tidyLen < 64 ∧ recordA.raw.length = 43 ∧
      -(2 ^ (publishedA.cfg.wMant - 1) : Int) ≤ recordA.mant ∧
      recordA.mant < (2 ^ (publishedA.cfg.wMant - 1) : Int)) ∧
    State.reset.cfg.wMant ≤ 32 ∧ State.reset.measValid = false := by decide

end Sys2Proof.Tests
end

/-! PROOFS of the scope family (`00_scope.md`): the configuration check as the constraints of R8 to R12,
and what a step that decodes or publishes says of LEN and CAPACITY (R8). -/

section

namespace Sys2Proof.Machine

/-! ### The configuration check, constraint by constraint -/

theorem offsetOk_iff {o : Nat} : offsetOk o = true ↔ 3 ≤ o ∧ o ≤ 16 := by simp [offsetOk]

/-- Only an extra annunciator is restricted: it must be a bit that `ANN_EXTRA` lists (R9, R49). -/
theorem targetOk_iff {xs : List Nat} {t : Target} :
    targetOk xs t = true ↔ ∀ bit, t = .ann (.extra bit) → bit ∈ xs := by
  cases t with
  | ann a => cases a <;> simp [targetOk]
  | pfx v => simp [targetOk]
  | unit v => simp [targetOk]
  | type v => simp [targetOk]

theorem fieldEntryOk_iff {c : Config} {e : FieldEntry} :
    fieldEntryOk c.annExtra e = true ↔ FieldEntryConstraint c e := by
  simp only [fieldEntryOk, FieldEntryConstraint, Bool.and_eq_true, offsetOk_iff, targetOk_iff,
    bne_iff_ne, and_assoc]

theorem barActiveOk_iff {t : BarTest} :
    barActiveOk t = true ↔ 3 ≤ t.offset ∧ t.offset ≤ 16 ∧ t.mask ≠ 0#8 := by
  simp only [barActiveOk, Bool.and_eq_true, offsetOk_iff, bne_iff_ne, and_assoc]

/-- A list of reserved bits whose members each occur once is one without repeats (R11). -/
theorem annExtraOk_iff {xs : List Nat} :
    annExtraOk xs = true ↔ xs.Nodup ∧ ∀ b ∈ xs, 19 ≤ b ∧ b ≤ 31 := by
  simp only [annExtraOk, List.all_eq_true, Bool.and_eq_true, decide_eq_true_eq, beq_iff_eq,
    List.nodup_iff_count_eq_one]
  exact ⟨fun h => ⟨fun b hb => (h b hb).2, fun b hb => (h b hb).1⟩,
    fun h b hb => ⟨h.2 b hb, h.1 b hb⟩⟩

/-! ### `BAR_MAP` (R10) -/

/-- Counting the offsets 3..16 that occur counts the distinct bytes, when no other offset occurs. -/
theorem barBytes_eq_card {m : List BarEntry} (h : ∀ e ∈ m, 3 ≤ e.offset ∧ e.offset ≤ 16) :
    barBytes m = (m.map (·.offset)).toFinset.card := by
  have himage : (m.map (·.offset)).toFinset
      = ((List.range 14).filter fun i => m.any fun e => e.offset == i + 3).toFinset.image
          (· + 3) := by
    ext o
    simp only [List.mem_toFinset, List.mem_map, Finset.mem_image, List.mem_filter, List.mem_range,
      List.any_eq_true, beq_iff_eq]
    constructor
    · rintro ⟨e, he, rfl⟩
      have := h e he
      exact ⟨e.offset - 3, ⟨by omega, e, he, by omega⟩, by omega⟩
    · rintro ⟨i, ⟨-, e, he, ho⟩, rfl⟩
      exact ⟨e, he, ho⟩
  rw [himage, Finset.card_image_of_injective _ (add_left_injective 3),
    List.toFinset_card_of_nodup (List.nodup_range.filter _), barBytes, List.countP_eq_length_filter]

/-- Each entry is alone at its place exactly when no place is listed twice. -/
theorem barPlaces_nodup_iff {m : List BarEntry} :
    (∀ e ∈ m, m.countP (fun f => f.offset == e.offset && f.bit == e.bit) = 1) ↔
      (m.map fun e => (e.offset, e.bit)).Nodup := by
  have hcount (e : BarEntry) :
      (m.map fun f => (f.offset, f.bit)).count (e.offset, e.bit)
        = m.countP fun f => f.offset == e.offset && f.bit == e.bit := by
    rw [List.count, List.countP_map]; rfl
  simp only [List.nodup_iff_count_eq_one, List.forall_mem_map, hcount]

theorem mem_barWeights {w : Nat} : w ∈ barWeights ↔ ∃ k, k < 14 ∧ 2 ^ k = w := by
  simp [barWeights]

theorem barWeights_nodup : barWeights.Nodup := by decide

/-- Fourteen weights are 2^0 to 2^13 in some order exactly when each of these occurs once. -/
theorem isPerm_barWeights_iff {ws : List Nat} (hlen : ws.length = 14) :
    ws.isPerm barWeights = true ↔ ∀ k, k < 14 → ws.count (2 ^ k) = 1 := by
  rw [List.isPerm_iff]
  constructor
  · intro hp k hk
    rw [hp.count_eq]
    exact List.count_eq_one_of_mem barWeights_nodup (mem_barWeights.mpr ⟨k, hk, rfl⟩)
  · intro h
    have hsub : barWeights ⊆ ws := fun w hw => by
      obtain ⟨k, hk, rfl⟩ := mem_barWeights.mp hw
      exact List.count_pos_iff.mp (by rw [h k hk]; decide)
    exact ((barWeights_nodup.subperm hsub).perm_of_length_le (by rw [hlen]; decide)).symm

theorem barMapOk_iff {m : List BarEntry} :
    barMapOk m = true ↔
      m.length = 14 ∧ (∀ e ∈ m, 3 ≤ e.offset ∧ e.offset ≤ 16 ∧ e.bit ≤ 7) ∧
      (m.map (·.offset)).toFinset.card = 3 ∧ (m.map fun e => (e.offset, e.bit)).Nodup ∧
      ∀ k, k < 14 → (m.map (·.weight)).count (2 ^ k) = 1 := by
  simp only [barMapOk, Bool.and_eq_true, beq_iff_eq, List.all_eq_true, decide_eq_true_eq,
    offsetOk_iff, barPlaces_nodup_iff, and_assoc]
  refine and_congr_right fun hlen => and_congr_right fun hrange => ?_
  rw [barBytes_eq_card fun e he => ⟨(hrange e he).1, (hrange e he).2.1⟩,
    isPerm_barWeights_iff (by rw [List.length_map, hlen])]

theorem configOk_iff {c : Config} : configOk c = true ↔ ConfigConstraint c := by
  simp only [configOk, ConfigConstraint, BarConstraint, Bool.and_eq_true, decide_eq_true_eq,
    List.all_eq_true, fieldEntryOk_iff, barActiveOk_iff, barMapOk_iff, annExtraOk_iff, and_assoc]

/-- Every meaning is a body run by `perform` (R59), so each refuses a configuration that fails the
check (log entry 6). -/
theorem exec_of_not_configOk (i : Instr) {s : State} (h : configOk s.cfg = false) :
    exec i s = .refused .badConfiguration := by
  cases i <;> simp only [exec, execReset, execIdle, execFeedTerm, execFeedData, execTxtTerm,
    execTxtNonAscii, execTokWs, execPcDigit, execPcPoint, execPcPlus, execPcMinus, execPcOther,
    perform_of_not_configOk h]

/-! ### Steps that decode and steps that publish (R8) -/

/-- A step with a publication or an error event completed a packet below the capacity boundary: its
events are those of the decode of `LEN + 1` bytes (R62). -/
theorem exec_event_completes {s t : State} {i : Instr} (h : exec i s = .next t)
    (he : t.measStb = true ∨ t.errStb = true) :
    s.len + 1 ≤ s.cfg.capacity - 1 ∧
      ∃ p u, p.length = s.len + 1 ∧ u.measStb = false ∧ t = report (decode s.cfg p) u := by
  obtain ⟨-, heff⟩ := exec_effect h
  cases heff with
  | reset ht => simp [ht] at he
  | idle ht => simp [ht] at he
  | unit _ r k q _ ht => simp [ht] at he
  | discard _ b _ _ _ ht => simp [ht] at he
  | keep b _ _ ht => simp [ht] at he
  | complete p hlt hne hp ht => exact ⟨by omega, p, _, (bufRead_eq_ok.mp hp).1, by simp, ht⟩

/-- A reported decode that raises MEAS_STB is one that gave a record (R87). -/
theorem decode_ok_of_report_measStb {r : Except ErrKind Measurement} {u : State}
    (hu : u.measStb = false) (h : (report r u).measStb = true) : ∃ m, r = .ok m := by
  cases r with
  | ok m => exact ⟨m, rfl⟩
  | error k => simp [report, hu] at h

/-- A step publishes only a packet of 43 bytes, so LEN was 42 and below the boundary (R8, R71). -/
theorem exec_publishes_len {s t : State} {i : Instr} (h : exec i s = .next t)
    (hm : t.measStb = true) : s.len = 42 ∧ 44 ≤ s.cfg.capacity := by
  obtain ⟨hcap, p, u, hlen, hu, rfl⟩ := exec_event_completes h (.inl hm)
  obtain ⟨m, hd⟩ := decode_ok_of_report_measStb hu hm
  have h43 : p.length = 43 := (decode_eq_ok hd).1
  omega

end Sys2Proof.Machine

end

section

open Sys2Proof.Machine

/-- Settles O12: `configOk_iff` goes through the check constraint by constraint, and every meaning is
a `perform`, which refuses what the check rejects. -/
theorem brokenConfigurationIsRefused : Obligations.BrokenConfigurationIsRefused :=
  ⟨fun _ => configOk_iff,
    fun _ i hc => exec_of_not_configOk i (Bool.eq_false_iff.mpr (mt configOk_iff.mp hc)),
    fun _ => rfl⟩

/-- Settles O20: an event is the report of a packet of `LEN + 1` bytes completed below the boundary,
and only a packet of 43 bytes decodes to a record. -/
theorem publicationNeedsCapacity44 : Obligations.PublicationNeedsCapacity44 :=
  ⟨fun _ => capacity_of_configOk, fun _ _ _ h _ =>
    ⟨fun he => (exec_event_completes h he).1, fun hm => (exec_publishes_len h hm).symm⟩⟩

end

/-! PROOFS of the state family (`10_state.md`): what a step leaves in LEN (R20), in MEAS_VALID (R23) and
in the error outputs (R26). -/

section

namespace Sys2Proof.Machine

@[simp] theorem report_ok (m : Measurement) (s : State) : report (.ok m) s = publish m s := rfl
@[simp] theorem report_error (k : ErrKind) (s : State) : report (.error k) s = emitErr k s := rfl

@[simp] theorem report_buf (r : Except ErrKind Measurement) (s : State) :
    (report r s).buf = s.buf := by cases r <;> rfl

@[simp] theorem report_len (r : Except ErrKind Measurement) (s : State) :
    (report r s).len = s.len := by cases r <;> rfl

/-! ### LEN (R20) -/

/-- A LEN below CAPACITY stays below it: the boundary check comes before the increment (R60). -/
theorem exec_len_lt {s t : State} {i : Instr} (h : exec i s = .next t)
    (hlen : s.len < s.cfg.capacity) : t.len < s.cfg.capacity := by
  obtain ⟨-, heff⟩ := exec_effect h
  cases heff with
  | reset ht => simp only [ht, resetState_len]; omega
  | idle ht => simpa [ht] using hlen
  | unit _ r k q _ ht => simpa [ht] using hlen
  | discard _ b _ _ _ ht => simp only [ht, emitOvf_len, setLen_len]; omega
  | keep b _ hne ht => simp only [ht, setLen_len]; omega
  | complete p _ _ _ ht => simp only [ht, report_len, setLen_len]; omega

/-- FEED_TERM writes the terminator at LEN and leaves LEN at 0, discarded or completed (R62). -/
theorem exec_feedTerm_len {s t : State} (h : exec .feedTerm s = .next t) :
    memRead t.buf s.len = some 0x0D#8 ∧ t.len = 0 := by
  obtain ⟨-, hbody⟩ := exec_feedTerm_eq_next.mp h
  obtain ⟨-, ⟨-, rfl⟩ | ⟨-, p, -, rfl⟩⟩ := feedTermBody_eq_ok.mp hbody
  · simp [termByte]
  · simp [termByte]

/-- FEED_DATA writes its byte at LEN, and LEN counts it below the boundary and is 0 at it (R61). -/
theorem exec_feedData_len {s t : State} {b : Byte} (h : exec (.feedData b) s = .next t) :
    memRead t.buf s.len = some b ∧
      t.len = if s.len = s.cfg.capacity - 1 then 0 else s.len + 1 := by
  obtain ⟨-, hbody⟩ := exec_feedData_eq_next.mp h
  obtain ⟨-, ⟨hlast, rfl⟩ | ⟨hlast, rfl⟩⟩ := feedDataBody_eq_ok.mp hbody
  · simpa using hlast
  · simpa using hlast

/-- Nothing but RESET and the FEEDs writes LEN (R20). -/
theorem exec_len_of_not_feed {s t : State} {i : Instr} (h : exec i s = .next t)
    (hreset : i ≠ .reset) (hterm : i ≠ .feedTerm) (hdata : ∀ b, i ≠ .feedData b) :
    t.len = s.len := by
  obtain ⟨-, heff⟩ := exec_effect h
  cases heff with
  | reset _ => exact absurd rfl hreset
  | idle ht => simp [ht]
  | unit _ r k q _ ht => simp [ht]
  | discard _ b hfeed _ _ _ => exact (hfeed.elim (fun e => hterm e.1) (hdata b)).elim
  | keep b _ _ _ => exact absurd rfl (hdata b)
  | complete p _ _ _ _ => exact absurd rfl hterm

/-- A number below CAPACITY fits the width of LEN, `ceil(log2(CAPACITY))` bits (R20). -/
theorem lt_two_pow_clog {n c : Nat} (h : n < c) : n < 2 ^ Nat.clog 2 c :=
  h.trans_le (Nat.le_pow_clog Nat.one_lt_two c)

/-! ### The step that has an event, and the error outputs (R26) -/

/-- The completion read depends on BUF alone. -/
theorem bufRead_congr {s t : State} (n : Nat) (h : s.buf = t.buf) : bufRead n s = bufRead n t := by
  rw [bufRead, bufRead, h]

/-- A step with a publication or an error event is a FEED_TERM, and it reports the decode of the packet
that BUF then holds (R62). -/
theorem exec_event_reports {s t : State} {i : Instr} (h : exec i s = .next t)
    (he : t.measStb = true ∨ t.errStb = true) :
    i = .feedTerm ∧ ∃ p, bufRead (s.len + 1) t = .ok p ∧
      t = report (decode s.cfg p)
        (setLen 0 (setBuf (memWrite s.buf s.len termByte) (beginStep s))) := by
  obtain ⟨-, heff⟩ := exec_effect h
  cases heff with
  | reset ht => simp [ht] at he
  | idle ht => simp [ht] at he
  | unit _ r k q _ ht => simp [ht] at he
  | discard _ b _ _ _ ht => simp [ht] at he
  | keep b _ _ ht => simp [ht] at he
  | complete p _ _ hp ht =>
    exact ⟨rfl, p, (bufRead_congr _ (by simp [ht])).trans hp, ht⟩

/-- A step with ERR_STB is the error event of a failed decode (R108). -/
theorem exec_errStb_emits {s t : State} {i : Instr} (h : exec i s = .next t)
    (he : t.errStb = true) :
    ∃ p k, bufRead (s.len + 1) t = .ok p ∧ decode s.cfg p = .error k ∧
      t = emitErr k (setLen 0 (setBuf (memWrite s.buf s.len termByte) (beginStep s))) := by
  obtain ⟨-, p, hp, ht⟩ := exec_event_reports h (.inr he)
  cases hd : decode s.cfg p with
  | ok m => simp [ht, hd] at he
  | error k => exact ⟨p, k, hp, hd, by rw [ht, hd, report_error]⟩

/-- Without ERR_STB the error outputs keep the 0 that every step begins with (R59). -/
theorem exec_errOutputs_zero {s t : State} {i : Instr} (h : exec i s = .next t)
    (he : t.errStb = false) : t.errCode = 0#3 ∧ t.errSub = false := by
  obtain ⟨-, heff⟩ := exec_effect h
  cases heff with
  | reset ht => simp [ht]
  | idle ht => simp [ht]
  | unit _ r k q _ ht => simp [ht]
  | discard _ b _ _ _ ht => simp [ht]
  | keep b _ _ ht => simp [ht]
  | complete p _ _ _ ht =>
    cases hd : decode s.cfg p with
    | ok m => simp [ht, hd]
    | error k => simp [ht, hd] at he

/-! ### MEAS_VALID (R23) -/

/-- RESET aside, a step sets MEAS_VALID when it publishes and else keeps it (R87). -/
theorem exec_measValid {s t : State} {i : Instr} (h : exec i s = .next t) (hi : i ≠ .reset) :
    t.measValid = (s.measValid || t.measStb) := by
  obtain ⟨-, heff⟩ := exec_effect h
  cases heff with
  | reset _ => exact absurd rfl hi
  | idle ht => simp [ht]
  | unit _ r k q _ ht => simp [ht]
  | discard _ b _ _ _ ht => simp [ht]
  | keep b _ _ ht => simp [ht]
  | complete p _ _ _ ht => cases hd : decode s.cfg p <;> simp [ht, hd]

/-- A step with MEAS_STB leaves a record in MEAS (R87). -/
theorem exec_measStb_meas {s t : State} {i : Instr} (h : exec i s = .next t)
    (hm : t.measStb = true) : ∃ m, t.meas = some m := by
  obtain ⟨-, p, -, ht⟩ := exec_event_reports h (.inl hm)
  cases hd : decode s.cfg p with
  | ok m => exact ⟨m, by simp [ht, hd]⟩
  | error k => simp [ht, hd] at hm

/-- An observer sees a publication of a step exactly when its MEAS_STB is 1 (R109). -/
theorem published_mem_eventsAt {s t : State} {i : Instr} (h : exec i s = .next t) :
    (∃ m, Event.published m ∈ eventsAt t) ↔ t.measStb = true := by
  constructor
  · rintro ⟨m, hm⟩
    by_contra hstb
    simp [eventsAt, hstb] at hm
  · intro hstb
    obtain ⟨m, hm⟩ := exec_measStb_meas h hstb
    exact ⟨m, by simp [eventsAt, hstb, hm]⟩

theorem nextState_eq_some {o : Host.Outcome State Fault Refusal} {t : State} :
    nextState o = some t ↔ o = .next t := by
  cases o <;> simp [nextState]

/-- A run of words is a step on the first and a run of the rest from there. -/
theorem runWords_cons {w : InputWord} {ws : List InputWord} {s t : State} :
    runWords (w :: ws) s = some t ↔
      ∃ u, exec (decodeWord w) s = .next u ∧ runWords ws u = some t := by
  simp only [runWords, ← nextState_eq_some]
  cases nextState (exec (decodeWord w) s) <;> simp

theorem eventsOf_cons {w : InputWord} {ws : List InputWord} {s u : State}
    (h : exec (decodeWord w) s = .next u) :
    eventsOf (w :: ws) s = eventsAt u ++ eventsOf ws u := by
  simp [eventsOf, h, nextState]

/-- A word without RST does not decode to RESET (R43). -/
theorem decodeWord_ne_reset {w : InputWord} (h : isResetWord w = false) : decodeWord w ≠ .reset := by
  cases hi : isIdleWord w with
  | true => simp [decodeWord_idle hi]
  | false => rw [decodeWord_feed h hi]; split <;> simp

/-- Over words without RESET, MEAS_VALID ends at 1 exactly when it began so or a step published. -/
theorem runWords_measValid {ws : List InputWord} {s t : State}
    (hws : ∀ w ∈ ws, isResetWord w = false) (h : runWords ws s = some t) :
    t.measValid = true ↔ s.measValid = true ∨ ∃ m, Event.published m ∈ eventsOf ws s := by
  induction ws generalizing s with
  | nil =>
    obtain rfl : s = t := by simpa [runWords] using h
    simp [eventsOf]
  | cons w rest ih =>
    obtain ⟨hw, hrest⟩ := List.forall_mem_cons.mp hws
    obtain ⟨u, hu, hrun⟩ := runWords_cons.mp h
    rw [ih hrest hrun, exec_measValid hu (decodeWord_ne_reset hw), Bool.or_eq_true,
      ← published_mem_eventsAt hu, eventsOf_cons hu]
    simp only [List.mem_append, exists_or, or_assoc]

end Sys2Proof.Machine

end

section

open Sys2Proof.Machine

/-- Settles O19: the range by `exec_len_lt`, and one lemma for each group of instructions that writes
LEN or leaves it. -/
theorem lenStaysInRange : Obligations.LenStaysInRange := by
  refine ⟨fun s t i h hlen => ?_, rfl⟩
  have hlt := exec_len_lt h hlen
  refine ⟨Nat.le_sub_one_of_lt hlt, lt_two_pow_clog hlt, ?_, ?_, ?_, exec_len_of_not_feed h⟩
  · rintro rfl
    rw [(exec_reset_eq_next.mp h).2, resetState_len]
  · rintro rfl
    exact exec_feedTerm_len h
  · rintro b rfl
    exact exec_feedData_len h

/-- Settles O22: a step other than RESET ors MEAS_STB into MEAS_VALID (`exec_measValid`), a run does
so word by word, and an error event sets no field of MEAS. -/
theorem measValidMeansPublishedSinceReset : Obligations.MeasValidMeansPublishedSinceReset := by
  refine ⟨rfl, fun ws s t hs hws h => ?_, fun s t h => ?_, fun s t i h hs hi => ?_,
    fun s t i h he => ?_⟩
  · simpa [hs] using runWords_measValid hws h
  · rw [(exec_reset_eq_next.mp h).2, resetState_measValid]
  · rw [exec_measValid h hi, hs, Bool.true_or]
  · obtain ⟨p, k, -, -, rfl⟩ := exec_errStb_emits h he
    simp

/-- Settles O24: with ERR_STB the step is the error event of a failed decode, and without it the
outputs keep the 0 of the step's start. -/
theorem errorOutputsHoldTheErrorKind : Obligations.ErrorOutputsHoldTheErrorKind := by
  refine ⟨fun s t i h => ⟨exec_errOutputs_zero h, fun he => ?_⟩, rfl, rfl⟩
  obtain ⟨p, k, hp, hd, ht⟩ := exec_errStb_emits h he
  exact ⟨p, k, hp, hd, by simp [ht], by simp [ht]⟩

end

/-! PROOFS of the encoding family (`30_encoding.md`): the input word's operations (R43), the token
characters' classes (R47), the error codes (R54) and the packed words (R55). -/

section

namespace Sys2Proof.Machine

/-! ### The input word (R42, R43) -/

/-- `IN_BYTE` is the low eight bits of the word (R42). -/
theorem inByte_getLsbD (w : InputWord) (i : Nat) :
    (inByte w).getLsbD i = (decide (i < 8) && w.getLsbD i) := by
  rw [inByte, BitVec.getLsbD_extractLsb', Nat.zero_add]

theorem inByte_toNat (w : InputWord) : (inByte w).toNat = w.toNat % 256 := by
  rw [inByte, BitVec.extractLsb'_toNat, Nat.shiftRight_zero]

/-- An input word is its fields RST, IN_VALID and IN_BYTE (R42). -/
theorem inputWord_eq_iff {w v : InputWord} :
    w = v ↔ w.getLsbD 9 = v.getLsbD 9 ∧ w.getLsbD 8 = v.getLsbD 8 ∧ inByte w = inByte v := by
  refine ⟨fun h => by simp [h], fun ⟨h9, h8, hbyte⟩ => BitVec.eq_of_getLsbD_eq fun i hi => ?_⟩
  obtain rfl | rfl | hi : i = 9 ∨ i = 8 ∨ i < 8 := by omega
  · exact h9
  · exact h8
  · have hbit : (inByte w).getLsbD i = (inByte v).getLsbD i := by rw [hbyte]
    simpa only [inByte_getLsbD, hi, decide_true, Bool.true_and] using hbit

/-- RESET's match and mask look at RST (R43). -/
theorem resetMask_iff {w : InputWord} :
    w &&& 0x200#10 = 0x200#10 ↔ isResetWord w = true := by
  rw [inputWord_eq_iff]
  simp [isResetWord, inByte, BitVec.extractLsb'_and]

/-- IDLE's match and mask look at RST and IN_VALID (R43). -/
theorem idleMask_iff {w : InputWord} :
    w &&& 0x300#10 = 0x000#10 ↔ isIdleWord w = true := by
  rw [inputWord_eq_iff]
  simp [isIdleWord, inByte, BitVec.extractLsb'_and]

/-- The FEEDs' match and mask hold exactly off the RESET and IDLE words (R43). -/
theorem feedMask_iff {w : InputWord} :
    w &&& 0x300#10 = 0x100#10 ↔ isResetWord w = false ∧ isIdleWord w = false := by
  rw [inputWord_eq_iff]
  simp +contextual [isResetWord, isIdleWord, inByte, BitVec.extractLsb'_and]

/-- The FEED_TERM word is the feed of the terminator (R43, R44). -/
theorem eq_feedTermWord_iff {w : InputWord} :
    w = 0x10D#10 ↔ w &&& 0x300#10 = 0x100#10 ∧ isTerm (inByte w) = true := by
  rw [inputWord_eq_iff, feedMask_iff, isTerm_iff, show inByte 0x10D#10 = 0x0D#8 from rfl]
  simp +contextual [isResetWord, isIdleWord, and_assoc]

/-- RST takes precedence: a RESET word is no IDLE word (R43). -/
theorem isIdleWord_of_reset {w : InputWord} (h : isResetWord w = true) : isIdleWord w = false := by
  rw [isResetWord] at h
  rw [isIdleWord, h, Bool.not_true, Bool.false_and]

/-- The rows of R43 as one case split: the four operations, each with the fields that select it. -/
theorem decodeWord_cases (w : InputWord) :
    (isResetWord w = true ∧ isIdleWord w = false ∧ decodeWord w = .reset) ∨
    (isResetWord w = false ∧ isIdleWord w = true ∧ decodeWord w = .idle) ∨
    (isResetWord w = false ∧ isIdleWord w = false ∧
      ((isTerm (inByte w) = true ∧ decodeWord w = .feedTerm) ∨
       (isTerm (inByte w) = false ∧ decodeWord w = .feedData (inByte w)))) := by
  cases hr : isResetWord w with
  | true => exact .inl ⟨rfl, isIdleWord_of_reset hr, decodeWord_reset hr⟩
  | false =>
    cases hi : isIdleWord w with
    | true => exact .inr (.inl ⟨rfl, rfl, decodeWord_idle hi⟩)
    | false =>
      have h := decodeWord_feed hr hi
      cases ht : isTerm (inByte w) <;> simp [h, ht]

/-! ### The character classes (R47) -/

theorem isDigit_iff {c : Byte} : isDigit c = true ↔ 0x30 ≤ c.toNat ∧ c.toNat ≤ 0x39 := by
  simp [isDigit]

/-- The tests of R46 and R47 against one byte, on its number. -/
theorem byte_eq_iff {c : Byte} {n : Nat} (hn : n < 256) : c = BitVec.ofNat 8 n ↔ c.toNat = n := by
  rw [← BitVec.toNat_inj, BitVec.toNat_ofNat, Nat.mod_eq_of_lt hn]

theorem isPoint_iff_toNat {c : Byte} : isPoint c = true ↔ c.toNat = 0x2E :=
  beq_iff_eq.trans (byte_eq_iff (by decide))

theorem isPlus_iff_toNat {c : Byte} : isPlus c = true ↔ c.toNat = 0x2B :=
  beq_iff_eq.trans (byte_eq_iff (by decide))

theorem isMinus_iff_toNat {c : Byte} : isMinus c = true ↔ c.toNat = 0x2D :=
  beq_iff_eq.trans (byte_eq_iff (by decide))

/-- The rows of R47 as one case split: the five classes, each with the characters in it. -/
theorem decodeChar_cases (c : Byte) :
    (0x30 ≤ c.toNat ∧ c.toNat ≤ 0x39 ∧ decodeChar c = .pcDigit (digitOf c)) ∨
    (c.toNat = 0x2E ∧ decodeChar c = .pcPoint) ∨
    (c.toNat = 0x2B ∧ decodeChar c = .pcPlus) ∨
    (c.toNat = 0x2D ∧ decodeChar c = .pcMinus) ∨
    (¬(0x30 ≤ c.toNat ∧ c.toNat ≤ 0x39) ∧ c.toNat ≠ 0x2E ∧ c.toNat ≠ 0x2B ∧ c.toNat ≠ 0x2D ∧
      decodeChar c = .pcOther c) := by
  simp only [decodeChar, isDigit_iff, isPoint_iff_toNat, isPlus_iff_toNat, isMinus_iff_toNat]
  split_ifs with hdig hpt hpl hmi
  · exact .inl ⟨hdig.1, hdig.2, rfl⟩
  · exact .inr (.inl ⟨hpt, rfl⟩)
  · exact .inr (.inr (.inl ⟨hpl, rfl⟩))
  · exact .inr (.inr (.inr (.inl ⟨hmi, rfl⟩)))
  · exact .inr (.inr (.inr (.inr ⟨hdig, hpt, hpl, hmi, rfl⟩)))

/-! ### What a token holds (R75) -/

/-- A run of token characters out of the text `l`. -/
def IsRunOf (l run : List Byte) : Prop := ∀ c ∈ run, isWs c = false ∧ c ∈ l

theorem IsRunOf.append_char {l run : List Byte} {b : Byte} (h : IsRunOf l run)
    (hws : isWs b = false) (hb : b ∈ l) : IsRunOf l (run ++ [b]) := by
  intro c hc
  rcases List.mem_append.mp hc with hc | hc
  · exact h c hc
  · obtain rfl := List.mem_singleton.mp hc
    exact ⟨hws, hb⟩

/-- What the tokeniser keeps over the text `l`: the ended tokens are non-empty runs of it, and the open
one is a run of it. -/
structure Tokens.Of (l : List Byte) (t : Tokens) : Prop where
  done : ∀ u ∈ t.done, u ≠ [] ∧ IsRunOf l u
  cur : IsRunOf l t.cur

theorem Tokens.Of.init (l : List Byte) : Tokens.Of l Tokens.init :=
  ⟨by simp [Tokens.init], by simp [Tokens.init, IsRunOf]⟩

theorem Tokens.Of.tokBreak {l : List Byte} {t : Tokens} (h : Tokens.Of l t) :
    Tokens.Of l (tokBreak t) := by
  unfold Machine.tokBreak
  split
  · exact h
  · rename_i hcur
    refine ⟨fun u hu => ?_, by simp [IsRunOf]⟩
    rcases List.mem_append.mp hu with hu | hu
    · exact h.done u hu
    · obtain rfl := List.mem_singleton.mp hu
      exact ⟨by simpa using hcur, h.cur⟩

theorem Tokens.Of.tokStep {l : List Byte} {t : Tokens} (h : Tokens.Of l t) {b : Byte}
    (hb : b ∈ l) : Tokens.Of l (tokStep t b) := by
  unfold Machine.tokStep
  split
  · exact h.tokBreak
  · rename_i hws
    exact ⟨h.done, h.cur.append_char (by simpa using hws) hb⟩

/-- Every byte of the text keeps it, so the whole text does (R75). -/
theorem Tokens.Of.foldl {l bs : List Byte} {t : Tokens} (h : Tokens.Of l t) (hbs : bs ⊆ l) :
    Tokens.Of l (bs.foldl Machine.tokStep t) := by
  induction bs generalizing t with
  | nil => exact h
  | cons b rest ih =>
    obtain ⟨hb, hrest⟩ := List.cons_subset.mp hbs
    exact ih (h.tokStep hb) hrest

/-- A token is not empty, and its bytes are bytes of the text outside WS (R75). -/
theorem mem_tokenize {l t : List Byte} (h : t ∈ tokenize l) : t ≠ [] ∧ IsRunOf l t := by
  rw [tokenize_eq_fold] at h
  exact ((Tokens.Of.init l).foldl (List.Subset.refl l)).tokBreak.done t h

/-- Bit 7 is clear exactly up to 0x7F (R48). -/
theorem isAscii_iff {b : Byte} : isAscii b = true ↔ b.toNat ≤ 0x7F := by
  have hbit : b.getLsbD 7 = decide (2 ^ 7 ≤ b.toNat) := BitVec.msb_eq_decide b
  rw [isAscii, hbit, Bool.not_eq_true', decide_eq_false_iff_not]
  omega

/-- In a packet that passes the ASCII check, the bytes before the first terminator are ASCII (R74). -/
theorem tidyOf_ascii {p : List Byte} (hl : p.length = 43) (ht : p[42]? = some 0x0D#8)
    (ha : nonAsciiInSpan p = false) {c : Byte} (hc : c ∈ tidyOf p) : c.toNat ≤ 0x7F := by
  obtain ⟨q, _, -, -, -, -, -, htidy, hspan⟩ := packet_split hl ht
  rw [hspan, List.any_eq_false] at ha
  exact isAscii_iff.mp (by simpa using ha c (htidy ▸ hc))

/-! ### The error codes (R54) -/

/-- No error kind has the code that says there is no error (R54). -/
theorem errCode_range (k : ErrKind) : errCode k ≠ 0#3 ∧ (errCode k).toNat ≤ 4 := by
  cases k <;> decide

/-- Only the token layout, an InvalidLength, has the subcode (R54). -/
theorem errCode_of_errSub {k : ErrKind} (h : errSub k = true) : errCode k = 1#3 := by
  cases k with
  | lengthTokens => rfl
  | _ => cases h

/-! ### The packed words (R55) -/

/-- A placed field is read back where it was placed. -/
theorem placeField_extract_self {n lo : Nat} (v : BitVec n) (h : lo + n ≤ 32) :
    (placeField n v lo).extractLsb' lo n = v := by
  refine BitVec.eq_of_getLsbD_eq fun i hi => ?_
  have hbit : lo + i < 32 := by omega
  rw [BitVec.getLsbD_extractLsb', placeField_getLsbD, Nat.add_sub_cancel_left]
  simp [hi, hbit]

/-- A placed field shows 0 in every field it does not overlap. -/
theorem placeField_extract_disjoint {n lo start len : Nat} (v : BitVec n)
    (h : lo + n ≤ start ∨ start + len ≤ lo) :
    (placeField n v lo).extractLsb' start len = 0#len := by
  refine BitVec.eq_of_getLsbD_eq fun i hi => ?_
  rw [BitVec.getLsbD_extractLsb', placeField_getLsbD, BitVec.getLsbD_zero]
  rcases h with h | h
  · simp [BitVec.getLsbD_of_ge v (start + i - lo) (by omega)]
  · simp [show ¬lo ≤ start + i by omega]

/-- `bar_value` is the bar graph's number, 0 when it is absent (R22). -/
theorem barValue_toNat (m : Measurement) :
    (barValue m).toNat = (m.bar.map fun v => v.val).getD 0 := by
  unfold barValue
  cases m.bar with
  | none => rfl
  | some v => exact Nat.mod_eq_of_lt v.isLt

theorem barPresent_getLsbD_zero (m : Measurement) : (barPresent m).getLsbD 0 = m.bar.isSome := by
  unfold barPresent
  cases m.bar <;> simp

/-- Word 0 field by field: each is read back, and those placed beside it show nothing there (R55). -/
theorem packedWord0_fields (m : Measurement) :
    (packedWord0 m).extractLsb' 0 3 = pfxCode m.pfx ∧
    (packedWord0 m).extractLsb' 3 4 = unitCode m.unit ∧
    (packedWord0 m).extractLsb' 7 2 = mtypeCode m.mtype ∧
    (packedWord0 m).extractLsb' 9 1 = barPresent m ∧
    (packedWord0 m).extractLsb' 10 14 = barValue m ∧
    (packedWord0 m).extractLsb' 24 6 = BitVec.ofNat 6 m.scale ∧
    (packedWord0 m).extractLsb' 30 1 = 1#1 ∧
    (packedWord0 m).extractLsb' 31 1 = 0#1 := by
  simp [packedWord0, BitVec.extractLsb'_or, placeField_extract_self, placeField_extract_disjoint]

/-- Byte lane `i` of a word of `raw` (R55). -/
theorem packedRaw_byte (raw : List Byte) (j : Nat) {i : Nat} (hi : i < 4) :
    (packedRaw raw j).extractLsb' (8 * i) 8 = raw.getD (4 * j + i) 0#8 := by
  unfold packedRaw
  interval_cases i <;>
    simp [BitVec.extractLsb'_or, placeField_extract_self, placeField_extract_disjoint]

/-- A field of one bit is that bit of the word. -/
theorem getLsbD_of_extract {w : BitVec 32} {i : Nat} {v : BitVec 1}
    (h : w.extractLsb' i 1 = v) : w.getLsbD i = v.getLsbD 0 := by
  rw [← h, BitVec.getLsbD_extractLsb']; simp

/-- MEAS reads as the record it holds once MEAS_VALID is 1 (R24). -/
theorem readMeas_of_valid {s : State} {m : Measurement} (hv : s.measValid = true)
    (hm : s.meas = some m) : readMeas s = .ok m := by
  simp [readMeas, hv, hm]

/-- MEAS faults while MEAS_VALID is 0 (R24, R122). -/
theorem readMeas_of_not_valid {s : State} (hv : s.measValid = false) :
    readMeas s = .error .measUnwritten := by
  simp [readMeas, hv]

/-- Inside the layout a packed read is a read of MEAS (R55). -/
theorem readPackedWord_eq {s : State} {i : Nat} (hw : s.cfg.wMant ≤ 32) (hi : i ≤ 14) :
    readPackedWord s i = (readMeas s).map (packedWord · i) := by
  unfold readPackedWord
  rw [if_neg (Nat.not_lt.mpr hw), if_neg (Nat.not_lt.mpr hi)]
  cases readMeas s <;> rfl

theorem readPackedWord_of_valid {s : State} {m : Measurement} {i : Nat}
    (hw : s.cfg.wMant ≤ 32) (hv : s.measValid = true) (hm : s.meas = some m) (hi : i ≤ 14) :
    readPackedWord s i = .ok (packedWord m i) := by
  rw [readPackedWord_eq hw hi, readMeas_of_valid hv hm]; rfl

/-- Inside the layout a bit other than MEAS_VALID is read from MEAS (R55). -/
theorem readPackedBit_eq {s : State} {i b : Nat} (hw : s.cfg.wMant ≤ 32) (hi : i ≤ 14)
    (hb : b ≤ 31) (h : ¬(i = 0 ∧ b = 30)) :
    readPackedBit s i b = (readMeas s).map fun m => (packedWord m i).getLsbD b := by
  unfold readPackedBit
  rw [if_neg (Nat.not_lt.mpr hw), if_neg (by omega), if_neg h]
  cases readMeas s <;> rfl

/-- A mantissa of W_MANT bits, at most 32, is the signed value of its word (R55). -/
theorem ofInt_mant_toInt {wMant : Nat} {mant : Int} (hw : wMant ≤ 32)
    (hlo : -(2 ^ (wMant - 1) : Int) ≤ mant) (hhi : mant < 2 ^ (wMant - 1)) :
    (BitVec.ofInt 32 mant).toInt = mant := by
  have hpow : (2 ^ (wMant - 1) : Int) ≤ 2 ^ (32 - 1) :=
    pow_le_pow_right₀ (by decide) (Nat.sub_le_sub_right hw 1)
  exact BitVec.toInt_ofInt_eq_self (by decide) (by omega) (by omega)

end Sys2Proof.Machine

end

section

open Sys2Proof Sys2Proof.Machine

/-- Settles O3: the four masks are tests of the word's fields, and `decodeWord_cases` goes through the
fields. -/
theorem inputWordSelectsExactlyOneOperation :
    Obligations.InputWordSelectsExactlyOneOperation := by
  intro w
  simp only [ne_eq, eq_feedTermWord_iff, resetMask_iff, idleMask_iff, feedMask_iff,
    ← inByte_toNat, BitVec.toNat_inj]
  obtain ⟨hr, hi, hd⟩ | ⟨hr, hi, hd⟩ | ⟨hr, hi, ⟨ht, hd⟩ | ⟨ht, hd⟩⟩ := decodeWord_cases w
  · simp [hr, hi, hd]
  · simp [hr, hi, hd]
  · simp [hr, hi, ht, hd]
  · simp [hr, hi, ht, hd, eq_comm]

/-- Settles O5: the classes by `decodeChar_cases`; a token is a non-empty run of the tidy packet outside
WS (`mem_tokenize`), and the tidy packet is ASCII. -/
theorem tokenCharacterDecodesByClass : Obligations.TokenCharacterDecodesByClass := by
  refine ⟨fun c => ?_, fun p hl ht ha t hmem => ?_⟩
  · simp only [decodeInput, Except.ok.injEq]
    obtain ⟨hlo, hhi, hd⟩ | ⟨hc, hd⟩ | ⟨hc, hd⟩ | ⟨hc, hd⟩ | ⟨hdig, hpt, hpl, hmi, hd⟩ :=
      decodeChar_cases c
    · have hop := digitOf_toNat c (isDigit_iff.mpr ⟨hlo, hhi⟩)
      have hpt : c.toNat ≠ 0x2E := by omega
      have hpl : c.toNat ≠ 0x2B := by omega
      have hmi : c.toNat ≠ 0x2D := by omega
      simp [hd, hlo, hhi, hpt, hpl, hmi, ← hop, BitVec.toNat_inj, eq_comm]
    · simp [hd, hc]
    · simp [hd, hc]
    · simp [hd, hc]
    · have hgt : 0x30 ≤ c.toNat → 0x39 < c.toNat := by omega
      simp +contextual [hd, hpt, hpl, hmi, hgt]
  · obtain ⟨hne, hrun⟩ := mem_tokenize hmem
    exact ⟨hne, fun c hc => ⟨(hrun c hc).1, tidyOf_ascii hl ht ha (hrun c hc).2⟩⟩

/-- Settles O25: with ERR_STB the outputs are an error kind's codes, and without it they are 0. -/
theorem errorCodesAreTheTable : Obligations.ErrorCodesAreTheTable := by
  refine ⟨⟨rfl, rfl⟩, ⟨rfl, rfl⟩, ⟨rfl, rfl⟩, ⟨rfl, rfl⟩, ⟨rfl, rfl⟩, fun s t i h => ?_⟩
  cases he : t.errStb with
  | false =>
    obtain ⟨hcode, hsub⟩ := exec_errOutputs_zero h he
    simp [hcode, hsub]
  | true =>
    obtain ⟨p, k, -, -, rfl⟩ := exec_errStb_emits h he
    obtain ⟨hne, hle⟩ := errCode_range k
    exact ⟨hle, by simp [hne], errCode_of_errSub⟩

/-- Settles O59: every read inside the layout is a read of MEAS, and word 0 and the words of `raw` are
read field by field (`packedWord0_fields`, `packedRaw_byte`). -/
theorem packedWordsLayOutTheRecord : Obligations.PackedWordsLayOutTheRecord := by
  refine ⟨by decide, by decide, by decide, fun s m hw hv hm hscale htidy _ => ?_,
    fun s hw hv => ?_⟩
  · have hread {i : Nat} (hi : i ≤ 14) : readPackedWord s i = .ok (packedWord m i) :=
      readPackedWord_of_valid hw hv hm hi
    refine ⟨?_, ⟨_, hread (by decide), rfl, ofInt_mant_toInt hw⟩, hread (by decide),
      ⟨_, hread (by decide), Nat.mod_eq_of_lt (by omega)⟩, fun j i hi hj => ?_⟩
    · obtain ⟨hpfx, hunit, htype, hpres, hbar, hsc, hval, hzero⟩ := packedWord0_fields m
      refine ⟨_, hread (by decide), hpfx, hunit, htype, ?_, ?_, ?_, ?_, ?_⟩
      · exact (getLsbD_of_extract hpres).trans (barPresent_getLsbD_zero m)
      · exact (congrArg BitVec.toNat hbar).trans (barValue_toNat m)
      · exact (congrArg BitVec.toNat hsc).trans (Nat.mod_eq_of_lt hscale)
      · exact getLsbD_of_extract hval
      · exact getLsbD_of_extract hzero
    · refine ⟨_, hread (by omega), ?_⟩
      rw [Nat.add_comm 4 j]
      exact packedRaw_byte m.raw j hi
  · have hmeas := readMeas_of_not_valid hv
    refine ⟨?_, fun i hi => ?_, fun i b hi hb h => ?_⟩
    · simp [readPackedBit, Nat.not_lt.mpr hw, hv]
    · rw [readPackedWord_eq hw hi, hmeas]; rfl
    · rw [readPackedBit_eq hw hi hb h, hmeas]; rfl

end

/-! PROOFS of the framer family (`40_framer.md`): IDLE (R63), the two FEEDs (R61, R62) and that no
operation stops (R68). -/

section

namespace Sys2Proof.Machine

/-! ### Clauses of the statements about a FEED, from the update it makes -/

theorem quiet_beginStep (s : State) : Quiet (beginStep s) := ⟨rfl, rfl, rfl, rfl, rfl⟩

/-- A FEED's update of BUF and LEN touches neither the configuration, the waiting inputs nor a unit. -/
theorem sameOutside_write (s : State) (n : Nat) (m : Memory) :
    SameOutside s (setLen n (setBuf m (beginStep s))) := ⟨rfl, rfl, rfl, rfl, rfl⟩

theorem SameOutside.emitOvf {s t : State} (h : SameOutside s t) : SameOutside s (emitOvf t) := h

theorem SameOutside.report {s t : State} (h : SameOutside s t) (r : Except ErrKind Measurement) :
    SameOutside s (report r t) := by
  cases r with
  | ok m => exact h
  | error k => exact h

theorem wroteCell_of_buf {s t : State} {a : Nat} {v : Byte} (h : t.buf = memWrite s.buf a v) :
    WroteCell s t a v := fun i => by rw [h, memRead_memWrite]

/-- On cleared outputs an error event is the only one reported (R108, R110). -/
theorem Quiet.reports_emitErr {s : State} (h : Quiet s) (k : ErrKind) : Reports k (emitErr k s) := by
  obtain ⟨hmeas, -, -, -, hovf⟩ := h
  exact ⟨hmeas, rfl, rfl, rfl, hovf⟩

/-! ### The FEED words and the byte count -/

/-- The FEED word of a byte is FEED_TERM for the terminator and FEED_DATA for any other (R43, R58). -/
theorem decodeWord_feedWord (b : Byte) :
    decodeWord (feedWord b) = if isTerm b then .feedTerm else .feedData b := by
  obtain ⟨hreset, hidle, hbyte⟩ := feedWord_fields b
  rw [decodeWord_feed hreset hidle, hbyte]

/-- The byte count is checked first (R71). -/
theorem decode_of_length_ne {c : Config} {p : List Byte} (h : p.length ≠ 43) :
    decode c p = .error .lengthBytes := if_pos h

/-! ### No operation stops (R68) -/

/-- An operation whose body cannot stop has a successor under an admitted configuration. -/
theorem perform_ok_succeeds {s : State} (hc : configOk s.cfg = true) (f : State → State) :
    ∃ t, perform (fun u => .ok (f u)) s = .next t :=
  ⟨_, perform_ok_eq_next.mpr ⟨hc, rfl⟩⟩

/-- FEED_DATA stops only for want of a cell at LEN (R31). -/
theorem exec_feedData_succeeds {s : State} (b : Byte) (hc : configOk s.cfg = true)
    (hl : s.len < s.cfg.capacity) : ∃ t, exec (.feedData b) s = .next t := by
  by_cases hlast : s.len = s.cfg.capacity - 1
  · exact ⟨_, exec_feedData_discard b hc hlast⟩
  · exact ⟨_, exec_feedData_keep b hc hl hlast⟩

/-- FEED_TERM stops only for want of a cell at LEN or of a byte in a cell below it (R15, R31). -/
theorem exec_feedTerm_succeeds {s : State} {q : List Byte} (hc : configOk s.cfg = true)
    (hl : s.len < s.cfg.capacity) (hq : HoldsPacket s q) : ∃ t, exec .feedTerm s = .next t := by
  by_cases hlast : s.len = s.cfg.capacity - 1
  · exact ⟨_, exec_feedTerm_discard hc hlast⟩
  · exact ⟨_, exec_feedTerm_complete hc hl hlast hq⟩

theorem exec_succeeds {s : State} (h : BlockInv s) (i : Instr) : ∃ t, exec i s = .next t := by
  obtain ⟨hc, -, -, hl, hwritten, -⟩ := h
  cases i with
  | feedTerm =>
    obtain ⟨q, hq, -⟩ := holds_of_written hwritten
    exact exec_feedTerm_succeeds hc hl hq
  | feedData b => exact exec_feedData_succeeds b hc hl
  | idle => exact perform_ok_succeeds hc fun u => u
  | _ => exact perform_ok_succeeds hc _

theorem passPlain_succeeds {s : State} (hc : configOk s.cfg = true) (b : PlainByte) :
    ∃ t, passPlain b s = .next t := by
  cases b with
  | scan _ => exact perform_ok_succeeds hc _
  | text _ => exact perform_ok_succeeds hc _

/-- The invariant says nothing of the waiting inputs. -/
theorem BlockInv.takeInput {s : State} (h : BlockInv s) : BlockInv (takeInput s) := h

theorem step_succeeds {s : State} (h : BlockInv s) : ∃ t, step s = .next t := by
  unfold step
  split
  · exact exec_succeeds h.takeInput _
  · exact passPlain_succeeds h.takeInput.1 _

end Sys2Proof.Machine

end

section

open Sys2Proof Sys2Proof.Machine

/-- Settles O10: a FEED finds its cell because LEN is below CAPACITY, a completion finds every cell
below LEN written, and no other operation can stop. -/
theorem everyOperationHasASuccessor : Obligations.EveryOperationHasASuccessor :=
  fun _ h => ⟨exec_succeeds h, step_succeeds h⟩

/-- Settles O14: IDLE's next state is the one with the outputs cleared. -/
theorem idleOnlyClearsTheStrobes : Obligations.IdleOnlyClearsTheStrobes := by
  refine ⟨fun w hrst hvalid => decodeWord_idle (by rw [isIdleWord, hrst, hvalid]; rfl),
    fun s hc => ⟨beginStep s, exec_idle_eq_next.mpr ⟨hc, rfl⟩, quiet_beginStep s, ?_⟩⟩
  exact ⟨⟨rfl, rfl, rfl, rfl, rfl⟩, rfl, rfl, rfl, rfl⟩

/-- Settles O15: the update that FEED_DATA makes at the boundary and the one below it, each read field
by field. -/
theorem feedDataKeepsOrDiscards : Obligations.FeedDataKeepsOrDiscards := by
  intro s b hc hl hb
  refine ⟨by rw [decodeWord_feedWord, hb]; rfl, ?_⟩
  by_cases hlast : s.len = s.cfg.capacity - 1
  · refine ⟨_, exec_feedData_discard b hc hlast, wroteCell_of_buf rfl,
      (sameOutside_write s _ _).emitOvf, rfl, rfl, rfl, rfl, rfl, rfl, ?_⟩
    rw [if_pos hlast]
    exact ⟨rfl, rfl⟩
  · refine ⟨_, exec_feedData_keep b hc hl hlast, wroteCell_of_buf rfl,
      sameOutside_write s _ _, rfl, rfl, rfl, rfl, rfl, rfl, ?_⟩
    rw [if_neg hlast]
    exact ⟨rfl, by rw [setLen_len]; omega, rfl⟩

/-- Settles O16: at the boundary the terminator is discarded; below it the decode of the partial packet
and the terminator is reported on cleared outputs. -/
theorem feedTermCompletesOrDiscards : Obligations.FeedTermCompletesOrDiscards := by
  refine ⟨decodeWord_feedWord 0x0D#8, fun s q hc hl hq => ?_⟩
  by_cases hlast : s.len = s.cfg.capacity - 1
  · refine ⟨_, exec_feedTerm_discard hc hlast, wroteCell_of_buf rfl,
      (sameOutside_write s _ _).emitOvf, rfl, ?_⟩
    rw [if_pos hlast]
    exact ⟨rfl, rfl, rfl, rfl, rfl, rfl, rfl⟩
  · refine ⟨_, exec_feedTerm_complete hc hl hlast hq, wroteCell_of_buf (report_buf _ _),
      (sameOutside_write s _ _).report _, report_len _ _, ?_⟩
    have hquiet : Quiet (setLen 0 (setBuf (memWrite s.buf s.len termByte) (beginStep s))) :=
      quiet_beginStep s
    rw [if_neg hlast, show (0x0D#8 : Byte) = termByte from rfl]
    refine ⟨fun m hd => ?_, fun k hd => ?_, fun h42 => ?_⟩
    · rw [hd, report_ok]
      exact ⟨rfl, rfl, rfl, rfl, rfl, rfl, rfl⟩
    · rw [hd, report_error]
      exact ⟨rfl, rfl, hquiet.reports_emitErr k⟩
    · have hlen : (q ++ [termByte]).length ≠ 43 := by
        rw [List.length_append, List.length_singleton, hq.1]; omega
      rw [decode_of_length_ne hlen, report_error]
      exact hquiet.reports_emitErr .lengthBytes

end

/-! PROOFS of the decoder family (`41_decoder.md`): the stages of `decode` and their order (R71 to R77,
R88), the fields read from the raw packet (R78 to R85), and the publication (R86, R87). -/

section

namespace Sys2Proof.Machine

/-! ### The stages of `decode` (R70, R88) -/

/-- Reading past the end gives 0, which is no terminator, so a terminator read at `i` is there (R72). -/
theorem getD_eq_term_iff {p : List Byte} {i : Nat} : p.getD i 0#8 = 0x0D#8 ↔ p[i]? = some 0x0D#8 := by
  rw [List.getD_eq_getElem?_getD]
  cases p[i]? <;> simp

/-- Past the checks on the raw packet and the ASCII check, the token count and then token 1 decide (R76,
R77). -/
theorem decode_value_stages (c : Config) {p : List Byte} (hl : p.length = 43)
    (ht : p[42]? = some 0x0D#8) (ha : nonAsciiInSpan p = false) :
    ((tokenize (tidyOf p)).length < 2 ∧ decode c p = .error .lengthTokens) ∨
    ∃ t0 t1 ts, tokenize (tidyOf p) = t0 :: t1 :: ts ∧
      ((parse c.wMant t1 = none ∧ decode c p = .error .malformedValue) ∨
       ∃ v, parse c.wMant t1 = some v ∧ decode c p = .ok (assemble c p v)) := by
  rw [decode_of_terminated hl ht, ha]
  obtain ⟨hlt, hv⟩ | ⟨t0, t1, ts, htoks, ⟨hparse, hv⟩ | ⟨v, hparse, hv⟩⟩ :=
    primaryValue_cases c.wMant (tokenize (tidyOf p))
  · exact .inl ⟨hlt, by simp [hv]⟩
  · exact .inr ⟨t0, t1, ts, htoks, .inl ⟨hparse, by simp [hv]⟩⟩
  · exact .inr ⟨t0, t1, ts, htoks, .inr ⟨v, hparse, by simp [hv]⟩⟩

theorem decode_of_nonAscii (c : Config) {p : List Byte} (hl : p.length = 43)
    (ht : p[42]? = some 0x0D#8) (ha : nonAsciiInSpan p = true) : decode c p = .error .encoding := by
  rw [decode_of_terminated hl ht, if_pos ha]

/-- Without the terminator at offset 42 the packet gets no further (R72). -/
theorem decode_of_not_terminated (c : Config) {p : List Byte} (hl : p.length = 43)
    (ht : p[42]? ≠ some 0x0D#8) : decode c p = .error .missingTerminator := by
  have hlast : p.getD 42 0#8 ≠ termByte := mt getD_eq_term_iff.mp ht
  exact (if_neg (not_not.mpr hl)).trans (if_pos hlast)

/-- A packet that passes the checks on the raw packet gets neither of their errors. -/
theorem decode_ne_of_terminated (c : Config) {p : List Byte} (hl : p.length = 43)
    (ht : p[42]? = some 0x0D#8) :
    decode c p ≠ .error .lengthBytes ∧ decode c p ≠ .error .missingTerminator := by
  cases ha : nonAsciiInSpan p with
  | true => simp [decode_of_nonAscii c hl ht ha]
  | false =>
    obtain ⟨-, hd⟩ | ⟨_, _, _, -, ⟨-, hd⟩ | ⟨v, -, hd⟩⟩ := decode_value_stages c hl ht ha
    all_goals simp [hd]

/-- The ASCII check fails on a byte of 0x80 or more before the first terminator, and on nothing else
(R74). -/
theorem nonAsciiInSpan_iff {p : List Byte} (hl : p.length = 43) (ht : p[42]? = some 0x0D#8) :
    nonAsciiInSpan p = true ↔ ∃ i b, i < tidyLength p ∧ p[i]? = some b ∧ 0x80 ≤ b.toNat := by
  obtain ⟨q, rest, rfl, -, -, -, hk, -, hspan⟩ := packet_split hl ht
  have hascii (b : Byte) : (!isAscii b) = true ↔ 0x80 ≤ b.toNat := by
    rw [Bool.not_eq_true', ← Bool.not_eq_true, isAscii_iff]; omega
  simp only [hspan, hk, List.any_eq_true, List.mem_iff_getElem?, hascii]
  constructor
  · rintro ⟨b, ⟨i, hi⟩, hb⟩
    obtain ⟨hlt, -⟩ := List.getElem?_eq_some_iff.mp hi
    exact ⟨i, b, hlt, by rwa [List.getElem?_append_left hlt], hb⟩
  · rintro ⟨i, b, hlt, hi, hb⟩
    exact ⟨b, ⟨i, by rwa [List.getElem?_append_left hlt] at hi⟩, hb⟩

theorem nonAsciiInSpan_of_ascii {p : List Byte} (hl : p.length = 43) (ht : p[42]? = some 0x0D#8)
    (ha : ∀ i b, i < tidyLength p → p[i]? = some b → b.toNat ≤ 0x7F) : nonAsciiInSpan p = false := by
  rw [← Bool.not_eq_true, nonAsciiInSpan_iff hl ht]
  rintro ⟨i, b, hi, hb, hge⟩
  have := ha i b hi hb
  omega

/-! ### The tokens (R75) -/

theorem tokenize_of_ws {ws : List Byte} (h : ∀ b ∈ ws, isWs b = true) : tokenize ws = [] := by
  rw [tokenize_eq_fold, tokFinish_fold_ws ws _ h]
  rfl

/-- A run that the text's end or white space ends is one token, and the rest is tokenised from scratch. -/
theorem tokFinish_fold_after_run {run rest : List Byte} (hrun : run ≠ [])
    (hrest : ∀ b, rest.head? = some b → isWs b = true) :
    tokFinish (rest.foldl tokStep ⟨[], run⟩) = run :: tokenize rest := by
  have hopen : run.isEmpty = false := by simpa using hrun
  cases rest with
  | nil => simp [tokFinish, tokBreak, hopen, tokenize_of_ws]
  | cons b rest' =>
    have hb : isWs b = true := hrest b rfl
    have hend : tokStep ⟨[], run⟩ b = ⟨[run], []⟩ := by simp [tokStep, hb, tokBreak, hopen]
    have hskip : tokStep Tokens.init b = ⟨[], []⟩ := by simp [tokStep, hb, tokBreak, Tokens.init]
    rw [tokenize_eq_fold, List.foldl_cons, List.foldl_cons, hend, hskip, tokFinish_fold_done]
    rfl

theorem tokenize_run {ws run rest : List Byte} (hws : ∀ b ∈ ws, isWs b = true) (hne : run ≠ [])
    (hrun : ∀ b ∈ run, isWs b = false) (hrest : ∀ b, rest.head? = some b → isWs b = true) :
    tokenize (ws ++ run ++ rest) = run :: tokenize rest := by
  rw [tokenize_eq_fold, List.foldl_append, List.foldl_append, Tokens.init, tok_fold_ws ws [] hws,
    tok_fold_run run [] [] hrun, List.nil_append, tokFinish_fold_after_run hne hrest]

/-! ### The range of the primary value (R77, R98) -/

/-- How many bytes tokens take up, each with one byte of white space after it. -/
def tokenRoom (toks : List (List Byte)) : Nat := (toks.map fun t => t.length + 1).sum

@[simp] theorem tokenRoom_nil : tokenRoom [] = 0 := rfl

@[simp] theorem tokenRoom_cons (t : List Byte) (toks : List (List Byte)) :
    tokenRoom (t :: toks) = t.length + 1 + tokenRoom toks := by simp [tokenRoom]

@[simp] theorem tokenRoom_append (xs ys : List (List Byte)) :
    tokenRoom (xs ++ ys) = tokenRoom xs + tokenRoom ys := by simp [tokenRoom]

/-- White space takes its own byte, after a token that it ends or beside none. -/
theorem tokenRoom_tokBreak (t : Tokens) :
    tokenRoom (tokBreak t).done + (tokBreak t).cur.length
      ≤ tokenRoom t.done + t.cur.length + 1 := by
  unfold tokBreak
  split_ifs
  · omega
  · simp only [tokenRoom_append, tokenRoom_cons, tokenRoom_nil, List.length_nil]
    omega

theorem tokenRoom_tokStep (t : Tokens) (b : Byte) :
    tokenRoom (tokStep t b).done + (tokStep t b).cur.length
      ≤ tokenRoom t.done + t.cur.length + 1 := by
  unfold tokStep
  split_ifs
  · exact tokenRoom_tokBreak t
  · simp [tokChar, Nat.add_assoc]

theorem tokenRoom_fold (l : List Byte) (t : Tokens) :
    tokenRoom (l.foldl tokStep t).done + (l.foldl tokStep t).cur.length
      ≤ tokenRoom t.done + t.cur.length + l.length := by
  induction l generalizing t with
  | nil => simp
  | cons b rest ih =>
    have hstep := tokenRoom_tokStep t b
    have hrest := ih (tokStep t b)
    rw [List.foldl_cons, List.length_cons]
    omega

/-- The tokens of a text fit in it, each but the last with the white space after it. -/
theorem tokenRoom_tokenize (l : List Byte) : tokenRoom (tokenize l) ≤ l.length + 1 := by
  have hfold := tokenRoom_fold l Tokens.init
  have hend := tokenRoom_tokBreak (l.foldl tokStep Tokens.init)
  have hinit : tokenRoom Tokens.init.done + Tokens.init.cur.length = 0 := rfl
  rw [tokenize_eq_fold, tokFinish]
  omega

/-- Token 1 has at most 40 bytes: a token and white space stand before it, in at most 42 (R73, R75). -/
theorem token1_length_le {p t0 t1 : List Byte} {ts : List (List Byte)} (hl : p.length = 43)
    (ht : p[42]? = some 0x0D#8) (htoks : tokenize (tidyOf p) = t0 :: t1 :: ts) : t1.length ≤ 40 := by
  obtain ⟨q, _, -, -, hq, -, -, htidy, -⟩ := packet_split hl ht
  have hroom := tokenRoom_tokenize (tidyOf p)
  have ht0 : t0 ≠ [] := (mem_tokenize (l := tidyOf p) (by simp [htoks])).1
  have := List.length_pos_iff.mpr ht0
  rw [htoks, htidy, tokenRoom_cons, tokenRoom_cons] at hroom
  omega

/-- A character raises the scale by at most 1, and not as the first one (R94). -/
theorem parserStep_scale (r : Parser) (c : Byte) :
    (parserStep r c).scale ≤ r.scale + 1 ∧ (r.ph = .start → (parserStep r c).scale = r.scale) := by
  unfold parserStep
  split_ifs
  · unfold parserDigit; cases h : r.ph <;> simp
  · unfold parserPoint; cases h : r.ph <;> simp
  · unfold parserSign; cases h : r.ph <;> simp
  · unfold parserSign; cases h : r.ph <;> simp
  · simp [parserOther]

theorem parser_fold_scale (t : List Byte) (r : Parser) :
    (t.foldl parserStep r).scale ≤ r.scale + t.length := by
  induction t generalizing r with
  | nil => simp
  | cons c rest ih =>
    have hstep := (parserStep_scale r c).1
    have hrest := ih (parserStep r c)
    rw [List.foldl_cons, List.length_cons]
    omega

/-- An accepted value has a digit, the registers' scale and a mantissa of `W_MANT` bits (R98). -/
theorem parserResult_range {w : Nat} {r : Parser} {mant : Int} {scale : Nat}
    (h : parserResult w r = some (mant, scale)) :
    r.seen = true ∧ scale = r.scale ∧ -(2 ^ (w - 1) : Int) ≤ mant ∧ mant < (2 ^ (w - 1) : Int) := by
  have hcast : ((2 ^ (w - 1) : Nat) : Int) = 2 ^ (w - 1) := by norm_cast
  have hpos : 0 < 2 ^ (w - 1) := Nat.two_pow_pos (w - 1)
  unfold parserResult magnitudeLimit at h
  by_cases hrej : r.ph = .err ∨ r.seen = false
  · rw [if_pos hrej] at h
    cases h
  have hseen : r.seen = true := by simpa using (not_or.mp hrej).2
  rw [if_neg hrej] at h
  cases hneg : r.neg with
  | true =>
    simp only [hneg, if_true, gt_iff_lt, Option.ite_none_left_eq_some, not_lt,
      Option.some.injEq, Prod.mk.injEq] at h
    obtain ⟨hlim, rfl, rfl⟩ := h
    exact ⟨hseen, rfl, by omega, by omega⟩
  | false =>
    simp only [hneg, Bool.false_eq_true, if_false, gt_iff_lt, Option.ite_none_left_eq_some, not_lt,
      Option.some.injEq, Prod.mk.injEq] at h
    obtain ⟨hlim, rfl, rfl⟩ := h
    exact ⟨hseen, rfl, by omega, by omega⟩

/-- The scale is below the token's length: the first character is before any fraction digit. -/
theorem parse_range {w : Nat} {t : List Byte} {mant : Int} {scale : Nat}
    (h : parse w t = some (mant, scale)) :
    scale < t.length ∧ -(2 ^ (w - 1) : Int) ≤ mant ∧ mant < (2 ^ (w - 1) : Int) := by
  obtain ⟨hseen, hscale, hrange⟩ := parserResult_range h
  refine ⟨?_, hrange⟩
  cases t with
  | nil => simp [Parser.init] at hseen
  | cons c rest =>
    have hfirst : (parserStep Parser.init c).scale = 0 := (parserStep_scale Parser.init c).2 rfl
    have hrest := parser_fold_scale rest (parserStep Parser.init c)
    rw [hscale, List.foldl_cons, List.length_cons]
    omega

/-! ### The field tests and the exclusive groups (R78 to R83) -/

/-- A masked byte is the mask exactly when every bit of the mask is set in it (R78). -/
theorem and_mask_eq_iff {b mask : Byte} :
    b &&& mask = mask ↔ ∀ j, j < 8 → mask.getLsbD j = true → b.getLsbD j = true := by
  constructor
  · intro h j _ hj
    rw [← h, BitVec.getLsbD_and, Bool.and_eq_true] at hj
    exact hj.1
  · intro h
    refine BitVec.eq_of_getLsbD_eq fun j hj => ?_
    rw [BitVec.getLsbD_and]
    cases hm : mask.getLsbD j with
    | true => rw [h j hj hm]; rfl
    | false => rw [Bool.and_false]

theorem fieldTest_iff {p : List Byte} {e : FieldEntry} {b : Byte} (hb : p[e.offset]? = some b) :
    fieldTest p e = true ↔ ∀ j, j < 8 → e.mask.getLsbD j = true → b.getLsbD j = true := by
  have hbyte : packetByte p e.offset = b := by
    rw [packetByte, List.getD_eq_getElem?_getD, hb]; rfl
  rw [fieldTest, maskTest, hbyte, beq_iff_eq, and_mask_eq_iff]

theorem pfxWrite_eq_none {p : List Byte} {e : FieldEntry} (h : ¬WritesPfx p e) :
    pfxWrite p e = none := by
  unfold pfxWrite
  split
  next v hv => exact if_neg fun ht => h ⟨⟨v, hv⟩, ht⟩
  next => rfl

theorem unitWrite_eq_none {p : List Byte} {pw : Bool} {e : FieldEntry} (h : ¬WritesUnit p e) :
    unitWrite p pw e = none := by
  unfold unitWrite
  split
  next v hv => exact if_neg fun ht => h ⟨⟨v, hv⟩, ht⟩
  next => rfl

theorem mtypeWrite_eq_none {p : List Byte} {e : FieldEntry} (h : ¬WritesType p e) :
    mtypeWrite p e = none := by
  unfold mtypeWrite
  split
  next v hv => exact if_neg fun ht => h ⟨⟨v, hv⟩, ht⟩
  next => rfl

/-- Last writer wins (R80, R81, R83): the fold ends with what the last writing entry writes, when the
others' writes are `none`. -/
theorem fold_of_isLastWriter {β : Type} {writes : FieldEntry → Prop} {w : FieldEntry → Option β}
    (hw : ∀ e, ¬writes e → w e = none) {m : List FieldEntry} {e : FieldEntry} {x v : β}
    (he : IsLastWriter m writes e) (hx : w e = some x) :
    m.foldl (fun v e => (w e).getD v) v = x := by
  obtain ⟨before, after, rfl, -, hafter⟩ := he
  exact fold_last_writer w before after e x v hx fun e' he' => hw e' (hafter e' he')

theorem IsLastWriter.writes {m : List FieldEntry} {writes : FieldEntry → Prop} {e : FieldEntry}
    (h : IsLastWriter m writes e) : writes e := by
  obtain ⟨_, _, _, he, _⟩ := h
  exact he

theorem resolvePfx_of_none {m : List FieldEntry} {p : List Byte} (h : ∀ e ∈ m, ¬WritesPfx p e) :
    resolvePfx m p = .none :=
  fold_no_writer (pfxWrite p) m .none fun e he => pfxWrite_eq_none (h e he)

theorem resolvePfx_of_last {m : List FieldEntry} {p : List Byte} {e : FieldEntry}
    (h : IsLastWriter m (WritesPfx p) e) {g : PrefixVal} (hg : e.target = .pfx g) :
    resolvePfx m p = pfxOf g :=
  fold_of_isLastWriter (fun _ => pfxWrite_eq_none) h (by simp [pfxWrite, hg, h.writes.2])

theorem resolveUnit_of_none {m : List FieldEntry} {pw : Bool} {p : List Byte}
    (h : ∀ e ∈ m, ¬WritesUnit p e) : resolveUnit m pw p = .none :=
  fold_no_writer (unitWrite p pw) m .none fun e he => unitWrite_eq_none (h e he)

theorem resolveUnit_of_last {m : List FieldEntry} {pw : Bool} {p : List Byte} {e : FieldEntry}
    (h : IsLastWriter m (WritesUnit p) e) {g : UnitGlyph} (hg : e.target = .unit g) :
    resolveUnit m pw p = unitOf pw g :=
  fold_of_isLastWriter (fun _ => unitWrite_eq_none) h (by simp [unitWrite, hg, h.writes.2])

theorem resolveMtype_of_none {m : List FieldEntry} {p : List Byte} (h : ∀ e ∈ m, ¬WritesType p e) :
    resolveMtype m p = .none :=
  fold_no_writer (mtypeWrite p) m .none fun e he => mtypeWrite_eq_none (h e he)

theorem resolveMtype_of_last {m : List FieldEntry} {p : List Byte} {e : FieldEntry}
    (h : IsLastWriter m (WritesType p) e) {g : TypeVal} (hg : e.target = .type g) :
    resolveMtype m p = mtypeOf g :=
  fold_of_isLastWriter (fun _ => mtypeWrite_eq_none) h (by simp [mtypeWrite, hg, h.writes.2])

/-- The pulse-width flag is the test of some TYPE(PW) entry, resolved or not (R79). -/
theorem pulseWidth_iff {m : List FieldEntry} {p : List Byte} :
    pulseWidth m p = true ↔ ∃ e ∈ m, e.target = .type .pw ∧ fieldTest p e = true := by
  have htest (e : FieldEntry) :
      pulseTest p e = true ↔ e.target = .type .pw ∧ fieldTest p e = true := by
    unfold pulseTest
    split
    next h => simp [h]
    next h => exact ⟨nofun, fun ⟨hpw, _⟩ => (h hpw).elim⟩
  simp only [pulseWidth, List.any_eq_true, htest]

/-- No glyph resolves to S_UNKNOWN (R82). -/
theorem unitOf_ne_sUnknown (pw : Bool) (g : UnitGlyph) : unitOf pw g ≠ .sUnknown := by
  cases g with
  | sGlyph => cases pw <;> simp [unitOf]
  | _ => simp [unitOf]

theorem resolveUnit_ne_sUnknown (m : List FieldEntry) (pw : Bool) (p : List Byte) :
    resolveUnit m pw p ≠ .sUnknown := by
  intro h
  obtain hnone | ⟨e, -, he⟩ := fold_writer_cases (unitWrite p pw) m .none
  · exact absurd (hnone.symm.trans h) (by decide)
  · have hw : unitWrite p pw e = some .sUnknown := he.trans (congrArg some h)
    unfold unitWrite at hw
    split at hw
    next g _ =>
      obtain ⟨-, hg⟩ := Option.ite_none_right_eq_some.mp hw
      exact unitOf_ne_sUnknown pw g (Option.some.inj hg)
    next => cases hw

/-! ### The bar graph and the annunciators (R84, R85) -/

theorem barGraph_isSome_iff {c : Config} {p : List Byte} :
    (barGraph c p).isSome = true ↔ maskTest p c.barActive.offset c.barActive.mask = true := by
  unfold barGraph
  split <;> simp [*]

/-- The weighted sum adds the weights of the set bits (R84). -/
theorem barSum_eq (m : List BarEntry) (p : List Byte) :
    barSum m p
      = (m.map fun e => if (p.getD e.offset 0#8).getLsbD e.bit then e.weight else 0).sum := by
  refine congrArg List.sum (List.map_congr_left fun e _ => ?_)
  rw [packetBit, packetByte]
  split_ifs
  · rw [Nat.one_mul]
  · rw [Nat.zero_mul]

/-- Under an admitted `BAR_MAP` the sum fits 14 bits, so narrowing drops nothing (R84). -/
theorem barGraph_val {c : Config} {p : List Byte} (hc : configOk c = true) {v : Fin 16384}
    (h : barGraph c p = some v) : v.val = barSum c.barMap p := by
  simp only [configOk, Bool.and_eq_true] at hc
  obtain ⟨⟨⟨-, hmap⟩, -⟩, -⟩ := hc
  have hsum := barSum_le c.barMap p
  rw [barMapOk_weight_sum hmap] at hsum
  obtain ⟨-, hv⟩ := Option.ite_none_right_eq_some.mp h
  rw [← Option.some.inj hv]
  exact Nat.mod_eq_of_lt (by omega)

theorem annWrite_eq_some {p : List Byte} {e : FieldEntry} {i : Nat} :
    annWrite p e = some i ↔ ∃ a, e.target = .ann a ∧ annBit a = i ∧ fieldTest p e = true := by
  unfold annWrite
  split
  next a ha => simp [ha, and_comm]
  next h => exact ⟨nofun, fun ⟨a, ha, _⟩ => (h a ha).elim⟩

/-- An annunciator bit is the OR of the tests of the entries that name it (R85). -/
theorem annunciators_getLsbD {m : List FieldEntry} {p : List Byte} {i : Nat} (hi : i < 32) :
    (annunciators m p).getLsbD i = true ↔
      ∃ e ∈ m, ∃ a, e.target = .ann a ∧ annBit a = i ∧ fieldTest p e = true := by
  rw [annunciators, annFold_getLsbD p m _ i hi, BitVec.getLsbD_zero, Bool.false_or,
    List.any_eq_true]
  simp only [beq_iff_eq, annWrite_eq_some]

/-- Past the table's 19 names a bit is named by an extra annunciator only (R53). -/
theorem eq_extra_of_annBit_ge {a : AnnName} (h : 19 ≤ annBit a) : a = .extra (annBit a) := by
  cases a with
  | extra bit => rfl
  | _ => exact absurd h (by decide)

/-! ### The publication (R86, R87) -/

/-- A step with MEAS_STB is a FEED_TERM that publishes the record of the packet that BUF then holds. -/
theorem exec_measStb_publishes {s t : State} {i : Instr} (h : exec i s = .next t)
    (hm : t.measStb = true) :
    i = .feedTerm ∧ ∃ p m, bufRead (s.len + 1) t = .ok p ∧ decode s.cfg p = .ok m ∧
      t = publish m (setLen 0 (setBuf (memWrite s.buf s.len termByte) (beginStep s))) := by
  obtain ⟨hi, p, hp, ht⟩ := exec_event_reports h (.inl hm)
  cases hd : decode s.cfg p with
  | ok m => exact ⟨hi, p, m, hp, hd, by rw [ht, hd, report_ok]⟩
  | error k => simp [ht, hd] at hm

/-- Below the boundary FEED_TERM reports the decode of the packet that BUF then holds (R62). -/
theorem exec_feedTerm_reports {s t : State} (h : exec .feedTerm s = .next t)
    (hne : s.len ≠ s.cfg.capacity - 1) :
    ∃ p, bufRead (s.len + 1) t = .ok p ∧
      t = report (decode s.cfg p)
        (setLen 0 (setBuf (memWrite s.buf s.len termByte) (beginStep s))) := by
  obtain ⟨-, hbody⟩ := exec_feedTerm_eq_next.mp h
  obtain ⟨-, ⟨hlast, -⟩ | ⟨-, p, hp, ht⟩⟩ := feedTermBody_eq_ok.mp hbody
  · exact absurd hlast hne
  · exact ⟨p, (bufRead_congr _ (by simp [ht])).trans hp, ht⟩

/-- RESET aside, a step without MEAS_STB keeps MEAS (R87). -/
theorem exec_keeps_meas {s t : State} {i : Instr} (h : exec i s = .next t) (hi : i ≠ .reset)
    (hm : t.measStb = false) : t.meas = s.meas := by
  obtain ⟨-, heff⟩ := exec_effect h
  cases heff with
  | reset _ => exact absurd rfl hi
  | idle ht => simp [ht]
  | unit _ r k q _ ht => simp [ht]
  | discard _ b _ _ _ ht => simp [ht]
  | keep b _ _ ht => simp [ht]
  | complete p _ _ _ ht =>
    cases hd : decode s.cfg p with
    | ok m => simp [ht, hd] at hm
    | error k => simp [ht, hd]

end Sys2Proof.Machine

end

section

open Sys2Proof Sys2Proof.Machine

/-- Settles O21: `exec_measStb_publishes` and its converse below the boundary; a step without MEAS_STB
keeps MEAS, and MEAS_VALID by `exec_measValid`. -/
theorem onlyASuccessfulDecodePublishes : Obligations.OnlyASuccessfulDecodePublishes := by
  refine fun s t i h => ⟨fun hm => ?_, ?_, fun hm hi => ⟨exec_keeps_meas h hi hm, ?_⟩⟩
  · obtain ⟨hi, p, m, hp, hd, rfl⟩ := exec_measStb_publishes h hm
    exact ⟨hi, rfl, p, m, hp, hd, rfl⟩
  · rintro p m rfl hne hp hd
    obtain ⟨p', hp', ht⟩ := exec_feedTerm_reports h hne
    obtain rfl : p = p' := Except.ok.inj (hp.symm.trans hp')
    rw [ht, hd, report_ok]
    exact ⟨rfl, rfl, rfl⟩
  · rw [exec_measValid h hi, hm, Bool.or_false]

/-- Settles O31: each check gives its error when it fails, and neither error comes past both. -/
theorem lengthThenTerminatorAreChecked : Obligations.LengthThenTerminatorAreChecked := by
  intro c p
  by_cases hl : p.length = 43
  case neg => exact ⟨iff_of_true (decode_of_length_ne hl) hl, fun h => absurd h hl⟩
  by_cases ht : p[42]? = some 0x0D#8
  · obtain ⟨hbytes, hterm⟩ := decode_ne_of_terminated c hl ht
    exact ⟨iff_of_false hbytes (not_not.mpr hl), fun _ => iff_of_false hterm (not_not.mpr ht)⟩
  · have hd := decode_of_not_terminated c hl ht
    exact ⟨iff_of_false (by simp [hd]) (not_not.mpr hl), fun _ => iff_of_true hd ht⟩

/-- Settles O32: the packet splits at its first terminator (`packet_split`). -/
theorem firstTerminatorEndsTheTidyPacket : Obligations.FirstTerminatorEndsTheTidyPacket := by
  intro p hl ht
  obtain ⟨q, rest, rfl, hq, hle, -, hk, htidy, -⟩ := packet_split hl ht
  refine ⟨q.length, hle, by simp, fun i hi hterm => ?_, hk, by simp [htidy]⟩
  rw [List.getElem?_append_left hi] at hterm
  exact absurd ((isTerm_iff _).mpr rfl) (by simp [hq _ (List.mem_of_getElem? hterm)])

/-- Settles O33: past the first two checks EncodingError is the ASCII check's error alone, and that check
is `nonAsciiInSpan_iff`. -/
theorem nonAsciiInTheSpanFails : Obligations.NonAsciiInTheSpanFails := by
  refine ⟨fun b => ?_, fun c p hl ht => ?_⟩
  · rw [← isAscii_iff, isAscii, Bool.not_eq_true']
  · rw [← nonAsciiInSpan_iff hl ht]
    cases ha : nonAsciiInSpan p with
    | true => simp [decode_of_nonAscii c hl ht ha]
    | false =>
      obtain ⟨-, hd⟩ | ⟨_, _, _, -, ⟨-, hd⟩ | ⟨v, -, hd⟩⟩ := decode_value_stages c hl ht ha
      all_goals simp [hd]

/-- Settles O34: the tokeniser passes over leading white space, gathers the run and ends it. -/
theorem tokensAreTheMaximalRuns : Obligations.TokensAreTheMaximalRuns :=
  ⟨fun _ => tokenize_of_ws, fun _ _ _ => tokenize_run⟩

/-- Settles O35: past the checks before, the token layout's error is that of fewer than two tokens. -/
theorem fewerThanTwoTokensFails : Obligations.FewerThanTwoTokensFails := by
  intro c p hl ht hascii
  have ha := nonAsciiInSpan_of_ascii hl ht hascii
  obtain ⟨hlt, hd⟩ | ⟨t0, t1, ts, htoks, ⟨-, hd⟩ | ⟨v, -, hd⟩⟩ := decode_value_stages c hl ht ha
  · simp [hlt, hd]
  · simp [htoks, hd]
  · simp [htoks, hd]

/-- Settles O36: past the checks before, the value stage parses token 1, whose range is `parse_range` and
whose length is at most 40. -/
theorem secondTokenIsThePrimaryValue : Obligations.SecondTokenIsThePrimaryValue := by
  intro c p t0 t1 ts hl ht hascii htoks
  have ha := nonAsciiInSpan_of_ascii hl ht hascii
  obtain ⟨hlt, -⟩ | ⟨u0, u1, us, htoks', hvalue⟩ := decode_value_stages c hl ht ha
  · simp [htoks] at hlt
  obtain ⟨rfl, rfl, rfl⟩ : t0 = u0 ∧ t1 = u1 ∧ ts = us := by simpa [htoks] using htoks'
  obtain ⟨hnone, hd⟩ | ⟨v, hsome, hd⟩ := hvalue
  · exact ⟨fun _ => hd, fun mant scale hparse => by simp [hnone] at hparse⟩
  · refine ⟨fun hnone => by simp [hsome] at hnone, fun mant scale hparse => ?_⟩
    obtain rfl : v = (mant, scale) := Option.some.inj (hsome.symm.trans hparse)
    obtain ⟨hscale, hlo, hhi⟩ := parse_range hparse
    have hlen := token1_length_le hl ht htoks
    exact ⟨_, hd, rfl, rfl, by omega, hlo, hhi⟩

/-- Settles O37: one stage's lemma for each check, the ASCII check as `nonAsciiInSpan_iff` says it. -/
theorem firstFailingStageDecidesTheError : Obligations.FirstFailingStageDecidesTheError := by
  intro c p
  dsimp only
  rw [ne_eq (p.getD 42 0#8), getD_eq_term_iff]
  by_cases hl : p.length = 43
  case neg => simp [hl, decode_of_length_ne]
  by_cases ht : p[42]? = some 0x0D#8
  case neg => simp [-getElem?_pos, hl, ht, decode_of_not_terminated]
  rw [← nonAsciiInSpan_iff hl ht]
  cases ha : nonAsciiInSpan p with
  | true => simp [-getElem?_pos, hl, ht, decode_of_nonAscii c hl ht ha]
  | false =>
    obtain ⟨hlt, hd⟩ | ⟨t0, t1, ts, htoks, hvalue⟩ := decode_value_stages c hl ht ha
    · simp [-getElem?_pos, hl, ht, hlt, hd]
    · rw [htoks, List.getD_cons_succ, List.getD_cons_zero]
      obtain ⟨hparse, hd⟩ | ⟨v, hparse, hd⟩ := hvalue
      · simp [-getElem?_pos, hl, ht, hparse, hd]
      · simp [-getElem?_pos, hl, ht, hparse, hd]

/-- Settles O38: the masked byte is the mask exactly when it has each of its bits. -/
theorem fieldTestNeedsEveryMaskBit : Obligations.FieldTestNeedsEveryMaskBit :=
  fun _ _ _ => fieldTest_iff

/-- Settles O39: the record's `pfx` is `resolvePfx` of the raw packet. -/
theorem prefixIsTheLastTrueEntry : Obligations.PrefixIsTheLastTrueEntry := by
  intro c p m h
  obtain ⟨-, -, -, -, -, -, v, -, -, rfl⟩ := decode_eq_ok h
  exact ⟨resolvePfx_of_none, fun e he => ⟨resolvePfx_of_last he, resolvePfx_of_last he,
    resolvePfx_of_last he, resolvePfx_of_last he, resolvePfx_of_last he⟩⟩

/-- Settles O40: the record's unit is `resolveUnit` of the raw packet with the pulse-width flag, which
alone decides the 'S' glyph. -/
theorem unitIsTheLastTrueEntry : Obligations.UnitIsTheLastTrueEntry := by
  intro c p m h
  obtain ⟨-, -, -, -, -, -, v, -, -, rfl⟩ := decode_eq_ok h
  refine ⟨resolveUnit_of_none, fun e he => ⟨resolveUnit_of_last he, resolveUnit_of_last he,
    resolveUnit_of_last he, resolveUnit_of_last he, resolveUnit_of_last he, resolveUnit_of_last he,
    resolveUnit_of_last he⟩, fun e he hg => ?_, resolveUnit_ne_sUnknown _ _ _⟩
  have hunit : (assemble c p v).unit = unitOf (pulseWidth c.fieldMap p) .sGlyph :=
    resolveUnit_of_last he hg
  rw [hunit, ← pulseWidth_iff]
  cases pulseWidth c.fieldMap p <;> simp [unitOf]

/-- Settles O41: the record's type is `resolveMtype` of the raw packet. -/
theorem typeIsTheLastTrueEntry : Obligations.TypeIsTheLastTrueEntry := by
  intro c p m h
  obtain ⟨-, -, -, -, -, -, v, -, -, rfl⟩ := decode_eq_ok h
  exact ⟨resolveMtype_of_none, fun e he => ⟨resolveMtype_of_last he, resolveMtype_of_last he,
    resolveMtype_of_last he⟩⟩

/-- Settles O42: the record's bar graph is `barGraph`, whose value is the sum un-narrowed. -/
theorem barGraphIsTheWeightedSum : Obligations.BarGraphIsTheWeightedSum := by
  intro c p m hc h
  obtain ⟨-, -, -, -, -, -, v, -, -, rfl⟩ := decode_eq_ok h
  exact ⟨barGraph_isSome_iff, fun b hb =>
    ⟨Nat.le_of_lt_succ b.isLt, (barGraph_val hc hb).trans (barSum_eq _ _)⟩⟩

/-- Settles O43: the bits by `annunciators_getLsbD`; an entry that sets a reserved bit has an extra name,
and the configuration check asks `ANN_EXTRA` to list it. -/
theorem annunciatorBitIsTheOrOfItsEntries : Obligations.AnnunciatorBitIsTheOrOfItsEntries := by
  refine ⟨by decide, fun c p m hc h => ?_⟩
  obtain ⟨-, -, -, -, -, -, v, -, -, rfl⟩ := decode_eq_ok h
  refine ⟨fun i hi => annunciators_getLsbD hi, fun i h19 hi hnot => ?_⟩
  rw [← Bool.not_eq_true]
  intro hbit
  obtain ⟨e, he, a, hta, rfl, -⟩ := (annunciators_getLsbD hi).mp hbit
  obtain ⟨-, hentries, -⟩ := configOk_iff.mp hc
  obtain ⟨-, -, -, hextra⟩ := hentries e he
  exact hnot (hextra _ (hta.trans (congrArg Target.ann (eq_extra_of_annBit_ge h19))))

/-- Settles O44: the publishing step had LEN 42 below the boundary, so the other one is below it too; both
then hold the same BUF, and each reports the decode of what it holds. -/
theorem publishedRecordIgnoresThePreviousOne : Obligations.PublishedRecordIgnoresThePreviousOne := by
  intro s s' t t' hcfg hbuf hlen h h' hm
  obtain ⟨hlen42, hcap⟩ := exec_publishes_len h hm
  obtain ⟨-, p, m, hp, hd, ht⟩ := exec_measStb_publishes h hm
  obtain ⟨p', hp', ht'⟩ := exec_feedTerm_reports h' (by rw [← hlen, ← hcfg]; omega)
  have hsame : bufRead (s.len + 1) t = bufRead (s.len + 1) t' :=
    bufRead_congr _ (by simp [ht, ht', hbuf, hlen])
  rw [← hlen, ← hsame, hp] at hp'
  obtain rfl : p = p' := Except.ok.inj hp'
  rw [← hcfg, hd, report_ok] at ht'
  refine ⟨by simp [ht'], by simp [ht, ht'], fun m' hm' => ?_⟩
  obtain rfl : m = m' := by simpa [ht] using hm'
  obtain ⟨-, -, -, -, -, -, v, -, -, rfl⟩ := decode_eq_ok hd
  exact ⟨by rw [hlen42] at hp; exact hp, rfl⟩

end

/-! PROOFS of the decimal parser family (`42_decimal_parser.md`): the registers after a text of the
grammar's shape, the shape of every text that does not end in ERR (R92), and the result (R98). -/

section

namespace Sys2Proof.Machine

/-- The sign of a token: none, '+' or '-' (R92). -/
def IsSign (sign : List Byte) : Prop := sign = [] ∨ sign = [0x2B#8] ∨ sign = [0x2D#8]

/-- The text after the sign: digits, and optionally a point and digits (R92); either run may be empty. -/
def IsUnsigned (u int point frac : List Byte) : Prop :=
  u = int ++ point ++ frac ∧ (∀ c ∈ int, isDigit c = true) ∧ (∀ c ∈ frac, isDigit c = true) ∧
    (point = [0x2E#8] ∨ (point = [] ∧ frac = []))

/-- A token of the grammar is a sign and an unsigned text with a digit in it. -/
theorem decimalToken_iff {t sign int point frac : List Byte} :
    DecimalToken t sign int point frac ↔
      IsSign sign ∧ (∃ u, t = sign ++ u ∧ IsUnsigned u int point frac) ∧ int ++ frac ≠ [] := by
  have hlen : 1 ≤ int.length + frac.length ↔ int ++ frac ≠ [] := by
    rw [← List.length_append, Nat.one_le_iff_ne_zero, List.length_eq_zero_iff.ne]
  simp only [DecimalToken, IsDigitChar, ← isDigit_iff, hlen]
  constructor
  · rintro ⟨rfl, hsign, hint, hfrac, hpoint, hdigit⟩
    exact ⟨hsign, ⟨_, by simp, rfl, hint, hfrac, hpoint⟩, hdigit⟩
  · rintro ⟨hsign, ⟨_, rfl, rfl, hint, hfrac, hpoint⟩, hdigit⟩
    exact ⟨by simp, hsign, hint, hfrac, hpoint, hdigit⟩

/-! ### The registers after a text of the grammar's shape (R94 to R96) -/

theorem parserPoint_of_int {r : Parser} (h : r.ph = .start ∨ r.ph = .signed ∨ r.ph = .int) :
    parserPoint r = { r with ph := .frac } := by
  rcases h with h | h | h <;> simp [parserPoint, h]

/-- A sign sets `neg` for '-' and leaves START or SIGNED. -/
theorem parser_fold_sign {sign : List Byte} (h : IsSign sign) :
    ∃ ph, (ph = .start ∨ ph = .signed) ∧
      sign.foldl parserStep Parser.init = ⟨ph, decide (sign = [0x2D#8]), false, 0, 0⟩ := by
  rcases h with rfl | rfl | rfl
  · exact ⟨.start, .inl rfl, rfl⟩
  · exact ⟨.signed, .inr rfl, rfl⟩
  · exact ⟨.signed, .inr rfl, rfl⟩

/-- An unsigned text adds its digits to `acc`, point removed, and its fraction digits to `scale`. -/
theorem parser_fold_unsigned {u int point frac : List Byte} (h : IsUnsigned u int point frac)
    {r : Parser} (hr : r.ph = .start ∨ r.ph = .signed) :
    ∃ ph, ph ≠ .err ∧ u.foldl parserStep r
      = ⟨ph, r.neg, r.seen || !(int ++ frac).isEmpty, digitsFrom r.acc (int ++ frac),
          r.scale + frac.length⟩ := by
  obtain ⟨rfl, hint, hfrac, hpoint⟩ := h
  have hafter := parser_fold_int int hint (r := r) (by tauto)
  have hphase : (int.foldl parserStep r).ph = .start ∨ (int.foldl parserStep r).ph = .signed ∨
      (int.foldl parserStep r).ph = .int := by
    rw [hafter]
    dsimp only
    split <;> tauto
  have hempty : (int ++ frac).isEmpty = (int.isEmpty && frac.isEmpty) := by cases int <;> rfl
  rcases hpoint with rfl | ⟨rfl, rfl⟩
  · refine ⟨.frac, by decide, ?_⟩
    rw [List.foldl_append, List.foldl_append, List.foldl_cons, List.foldl_nil, parserStep_point,
      parserPoint_of_int hphase, parser_fold_frac frac hfrac rfl, hafter, digitsFrom_append]
    simp [Bool.or_assoc, hempty]
  · refine ⟨(int.foldl parserStep r).ph, fun herr => by simp [herr] at hphase, ?_⟩
    simp only [List.append_nil, List.length_nil, Nat.add_zero]
    rw [hafter]

/-- After a sign and an unsigned text the phase is not ERR, and `seen` says whether there was a digit. -/
theorem parser_fold_signed {sign u int point frac : List Byte} (hsign : IsSign sign)
    (hu : IsUnsigned u int point frac) :
    ∃ ph, ph ≠ .err ∧ (sign ++ u).foldl parserStep Parser.init
      = ⟨ph, decide (sign = [0x2D#8]), !(int ++ frac).isEmpty, decimalValue (int ++ frac),
          frac.length⟩ := by
  obtain ⟨ph, hph, hafter⟩ := parser_fold_sign hsign
  obtain ⟨ph', hne, hfold⟩ :=
    parser_fold_unsigned hu (r := ⟨ph, decide (sign = [0x2D#8]), false, 0, 0⟩) hph
  refine ⟨ph', hne, ?_⟩
  rw [List.foldl_append, hafter, hfold, Bool.false_or, Nat.zero_add]
  rfl

/-! ### The shape of a text that does not end in ERR (R95 to R97) -/

/-- From FRAC only digits stay out of ERR. -/
theorem isDigit_of_fold_frac {u : List Byte} {r : Parser} (hr : r.ph = .frac)
    (h : (u.foldl parserStep r).ph ≠ .err) : ∀ c ∈ u, isDigit c = true := by
  induction u generalizing r with
  | nil => simp
  | cons c rest ih =>
    cases hc : isDigit c with
    | false => exact absurd (parser_fold_err rest (parserStep_frac_other hr hc)) h
    | true =>
      have hstep : (parserStep r c).ph = .frac := by
        rw [parserStep_digit hc]
        simp [parserDigit, hr]
      exact List.forall_mem_cons.mpr ⟨hc, ih hstep h⟩

/-- From SIGNED and INT only an unsigned text stays out of ERR. -/
theorem isUnsigned_of_fold {u : List Byte} {r : Parser} (hr : r.ph = .int ∨ r.ph = .signed)
    (h : (u.foldl parserStep r).ph ≠ .err) : ∃ int point frac, IsUnsigned u int point frac := by
  induction u generalizing r with
  | nil => exact ⟨[], [], [], by simp [IsUnsigned]⟩
  | cons c rest ih =>
    cases hd : isDigit c with
    | true =>
      have hstep : (parserStep r c).ph = .int := by
        rw [parserStep_digit hd]
        rcases hr with hr | hr <;> simp [parserDigit, hr]
      obtain ⟨int, point, frac, rfl, hint, hrest⟩ := ih (.inl hstep) h
      exact ⟨c :: int, point, frac, by simp, List.forall_mem_cons.mpr ⟨hd, hint⟩, hrest⟩
    | false =>
      cases hp : isPoint c with
      | false => exact absurd (parser_fold_err rest (parserStep_int_other hr hd hp)) h
      | true =>
        obtain rfl := (isPoint_iff c).mp hp
        have hstep : (parserStep r 0x2E#8).ph = .frac := by
          rw [parserStep_point, parserPoint_of_int (by tauto)]
        exact ⟨[], [0x2E#8], rest, rfl, by simp, isDigit_of_fold_frac hstep h, .inl rfl⟩

theorem isSign_singleton {c : Byte} : IsSign [c] ↔ isPlus c = true ∨ isMinus c = true := by
  simp [IsSign, isPlus, isMinus]

/-- A sign sends START to SIGNED (R96). -/
theorem parserStep_sign {c : Byte} (h : IsSign [c]) : (parserStep Parser.init c).ph = .signed := by
  rcases isSign_singleton.mp h with hc | hc
  · obtain rfl : c = 0x2B#8 := by simpa [isPlus] using hc
    rfl
  · obtain rfl : c = 0x2D#8 := by simpa [isMinus] using hc
    rfl

/-- A character that is no sign steps from START as from SIGNED. -/
theorem parserStep_start_eq_signed {r : Parser} (hr : r.ph = .start) {c : Byte}
    (hc : ¬IsSign [c]) : parserStep r c = parserStep { r with ph := .signed } c := by
  obtain ⟨hplus, hminus⟩ := not_or.mp (mt isSign_singleton.mpr hc)
  simp [parserStep, parserDigit, parserPoint, parserOther, hr, hplus, hminus]

/-- From the initial values only a sign and an unsigned text stay out of ERR. -/
theorem signed_of_fold_init {t : List Byte} (h : (t.foldl parserStep Parser.init).ph ≠ .err) :
    ∃ sign int point frac, IsSign sign ∧ ∃ u, t = sign ++ u ∧ IsUnsigned u int point frac := by
  cases t with
  | nil => exact ⟨[], [], [], [], .inl rfl, [], rfl, by simp [IsUnsigned]⟩
  | cons c rest =>
    by_cases hc : IsSign [c]
    · obtain ⟨int, point, frac, hu⟩ := isUnsigned_of_fold (.inr (parserStep_sign hc)) h
      exact ⟨[c], int, point, frac, hc, rest, rfl, hu⟩
    · rw [List.foldl_cons, parserStep_start_eq_signed rfl hc, ← List.foldl_cons] at h
      obtain ⟨int, point, frac, hu⟩ := isUnsigned_of_fold (.inr rfl) h
      exact ⟨[], int, point, frac, .inl rfl, c :: rest, rfl, hu⟩

/-! ### The result (R98) -/

/-- R98: acceptance outside ERR, with a digit and within the bound of the sign. -/
theorem parserResult_eq_some {w : Nat} {r : Parser} {mant : Int} {scale : Nat} :
    parserResult w r = some (mant, scale) ↔
      r.ph ≠ .err ∧ r.seen = true ∧ r.acc ≤ magnitudeLimit w r.neg ∧
        mant = (if r.neg then -(r.acc : Int) else (r.acc : Int)) ∧ scale = r.scale := by
  simp only [parserResult, Option.ite_none_left_eq_some, not_or, Bool.not_eq_false, gt_iff_lt,
    not_lt, Option.some.injEq, Prod.mk.injEq, and_assoc, eq_comm (b := mant), eq_comm (b := scale)]

/-- On a sign and an unsigned text `parse` accepts exactly when there is a digit and the digit string,
point removed, is within the bound. -/
theorem parse_signed_eq_some {w : Nat} {mant : Int} {scale : Nat}
    {sign u int point frac : List Byte} (hsign : IsSign sign) (hu : IsUnsigned u int point frac) :
    parse w (sign ++ u) = some (mant, scale) ↔
      int ++ frac ≠ [] ∧ scale = frac.length ∧
        (if sign = [0x2D#8] then
          decimalValue (int ++ frac) ≤ 2 ^ (w - 1) ∧ mant = -(decimalValue (int ++ frac) : Int)
         else
          decimalValue (int ++ frac) ≤ 2 ^ (w - 1) - 1 ∧
            mant = (decimalValue (int ++ frac) : Int)) := by
  obtain ⟨ph, hph, hfold⟩ := parser_fold_signed hsign hu
  rw [parse, hfold, parserResult_eq_some]
  have hseen : (!(int ++ frac).isEmpty) = true ↔ int ++ frac ≠ [] := by simp
  by_cases hminus : sign = [0x2D#8]
  · simp only [hminus, hseen, magnitudeLimit, decide_true, if_true]
    tauto
  · simp only [hminus, hseen, magnitudeLimit, decide_false, Bool.false_eq_true, if_false]
    tauto

end Sys2Proof.Machine

end

section

open Sys2Proof Sys2Proof.Machine

/-- Settles O52: an accepted text does not end in ERR, so it is a sign and an unsigned text
(`signed_of_fold_init`); on such a text `parse_signed_eq_some` says when and what `parse` gives. -/
theorem parserAcceptsExactlyTheGrammar : Obligations.ParserAcceptsExactlyTheGrammar := by
  intro w t mant scale
  constructor
  · intro h
    obtain ⟨hne, -⟩ := parserResult_eq_some.mp h
    obtain ⟨sign, int, point, frac, hsign, u, rfl, hu⟩ := signed_of_fold_init hne
    obtain ⟨hdigit, hvalue⟩ := (parse_signed_eq_some hsign hu).mp h
    exact ⟨sign, int, point, frac, decimalToken_iff.mpr ⟨hsign, ⟨u, rfl, hu⟩, hdigit⟩, hvalue⟩
  · rintro ⟨sign, int, point, frac, htoken, hvalue⟩
    obtain ⟨hsign, ⟨u, rfl, hu⟩, hdigit⟩ := decimalToken_iff.mp htoken
    exact (parse_signed_eq_some hsign hu).mpr ⟨hdigit, hvalue⟩

end

/-! PROOFS of the exceptions family (`60_exceptions.md`): the overflow event (R107) and the error event
(R108). -/

section

namespace Sys2Proof.Machine

/-! ### The overflow event (R107) -/

/-- At the boundary both FEEDs make one update: their byte is written, LEN is emptied and OVF_STB raised
(R60). -/
theorem exec_feed_discard {s : State} {i : Instr} (hc : configOk s.cfg = true)
    (hlast : s.len = s.cfg.capacity - 1) (hfeed : i = .feedTerm ∨ ∃ b, i = .feedData b) :
    ∃ v, exec i s = .next (emitOvf (setLen 0 (setBuf (memWrite s.buf s.len v) (beginStep s)))) := by
  obtain rfl | ⟨b, rfl⟩ := hfeed
  · exact ⟨termByte, exec_feedTerm_discard hc hlast⟩
  · exact ⟨b, exec_feedData_discard b hc hlast⟩

/-- From an empty framer a data byte is stored at index 0, which is below every admitted boundary
(R8, R61). -/
theorem exec_feedData_of_empty {s : State} (b : Byte) (hc : configOk s.cfg = true)
    (hempty : s.len = 0) :
    ∃ t, exec (.feedData b) s = .next t ∧ t.len = 1 ∧ memRead t.buf 0 = some b := by
  have h15 := capacity_of_configOk hc
  obtain ⟨t, ht⟩ := exec_feedData_succeeds b hc (by omega)
  obtain ⟨hcell, hlen⟩ := exec_feedData_len ht
  rw [if_neg (by omega)] at hlen
  exact ⟨t, ht, by omega, hempty ▸ hcell⟩

end Sys2Proof.Machine

end

section

open Sys2Proof Sys2Proof.Machine

/-- Settles O17: the one update of a discarded FEED, read field by field, leaves an empty framer. -/
theorem feedAtTheBoundaryIsDroppedWithoutError :
    Obligations.FeedAtTheBoundaryIsDroppedWithoutError := by
  intro s i hc hlast hfeed
  obtain ⟨v, ht⟩ := exec_feed_discard hc hlast hfeed
  exact ⟨_, ht, rfl, rfl, rfl, rfl, rfl, rfl, rfl, rfl, fun b _ => exec_feedData_of_empty b hc rfl⟩

/-- Settles O23: a step with ERR_STB is `emitErr` on the cleared outputs after FEED_TERM's write, and
below the boundary FEED_TERM reports the decode of the packet it completed, here a failed one. -/
theorem errorEventKeepsTheRecord : Obligations.ErrorEventKeepsTheRecord := by
  refine fun s t i h => ⟨fun he => ?_, ?_⟩
  · obtain ⟨hi, -⟩ := exec_event_reports h (.inr he)
    obtain ⟨p, k, hp, hd, rfl⟩ := exec_errStb_emits h he
    exact ⟨hi, rfl, rfl, rfl, (sameOutside_write s _ _).report (.error k), wroteCell_of_buf rfl,
      p, k, hp, hd, (quiet_beginStep s).reports_emitErr k⟩
  · rintro p k rfl hne hp hd
    obtain ⟨p', hp', ht⟩ := exec_feedTerm_reports h hne
    obtain rfl : p = p' := Except.ok.inj (hp.symm.trans hp')
    rw [ht, hd, report_error]
    exact (quiet_beginStep s).reports_emitErr k

end

/-! PROOFS of the reset and hazards family (`70_reset_and_hazards.md`): the values RESET leaves (R117,
R118) and the read of MEAS before a publication (R122). -/

section

namespace Sys2Proof.Machine

/-- No cell of the BUF that RESET leaves has a value (R118). -/
theorem memRead_nil (a : Nat) : memRead [] a = none := rfl

theorem quiet_resetState (s : State) : Quiet (resetState s) := ⟨rfl, rfl, rfl, rfl, rfl⟩

/-- Under the invariant MEAS holds a record once MEAS_VALID is 1 (R24). -/
theorem BlockInv.exists_meas {s : State} (h : BlockInv s) (hv : s.measValid = true) :
    ∃ m, s.meas = some m := by
  obtain ⟨-, -, -, -, -, hsome, -⟩ := h
  exact Option.isSome_iff_exists.mp (hsome.symm.trans hv)

end Sys2Proof.Machine

end

section

open Sys2Proof Sys2Proof.Machine

/-- Settles O13: RESET's next state is `resetState`, read element by element; `State.reset` is the
`resetState` of itself. -/
theorem resetLeavesTheResetState : Obligations.ResetLeavesTheResetState := by
  refine ⟨fun w hrst => decodeWord_reset hrst, fun s hc => ?_, ?_⟩
  · exact ⟨resetState (beginStep s), exec_reset_eq_next.mpr ⟨hc, rfl⟩,
      rfl, memRead_nil, rfl, rfl, quiet_resetState _, rfl⟩
  · exact ⟨rfl, memRead_nil, rfl, rfl, quiet_resetState State.reset⟩

/-- Settles O58: the read faults without MEAS_VALID, and the invariant gives a valid MEAS its record. -/
theorem readBeforePublicationFaults : Obligations.ReadBeforePublicationFaults := by
  refine ⟨fun s hv => readMeas_of_not_valid hv, fun s hinv hv => ?_⟩
  obtain ⟨m, hm⟩ := hinv.exists_meas hv
  exact ⟨m, hm, readMeas_of_valid hv hm⟩

end

/-! PROOFS of the other family, encodings: the encoder and the decoder undo one another (R42 to R48), and
the stimulus statements expand to the operations' words (R58). -/

section

namespace Sys2Proof.Machine

/-! ### What an encoding decodes to -/

/-- The terminator is ASCII, so the scan's test for it takes no non-ASCII byte (R44, R48). -/
theorem isTerm_of_not_isAscii {b : Byte} (h : isAscii b = false) : isTerm b = false := by
  cases ht : isTerm b with
  | false => rfl
  | true =>
    obtain rfl := (isTerm_iff b).mp ht
    exact absurd h (by decide)

theorem decodeScan_nonAscii {b : Byte} (h : isAscii b = false) :
    decodeScan b = .ok (.txtNonAscii b) := by
  simp [decodeScan, isTerm_of_not_isAscii h, h]

/-- The character `0011dddd` of a digit `d` up to 9 is of class DIGIT with operand `d` (R47). -/
theorem decodeChar_of_digit : ∀ d : BitVec 4, d.toNat ≤ 9 →
    decodeChar (0x30#8 ||| d.setWidth 8) = .pcDigit d := by decide

theorem decodeChar_other {c : Byte} (h : isOther c = true) : decodeChar c = .pcOther c := by
  simp only [isOther, Bool.not_eq_true', Bool.or_eq_false_iff] at h
  obtain ⟨⟨⟨hdigit, hpoint⟩, hplus⟩, hminus⟩ := h
  simp [decodeChar, hdigit, hpoint, hplus, hminus]

/-! ### What decodes to an instruction -/

/-- A word that is neither RESET nor IDLE is the FEED word of its byte (R42, R58). -/
theorem feedWord_inByte {w : InputWord} (hr : isResetWord w = false) (hi : isIdleWord w = false) :
    feedWord (inByte w) = w := by
  obtain ⟨hr', hi', hbyte⟩ := feedWord_fields (inByte w)
  simp only [isResetWord] at hr hr'
  simp only [isIdleWord, hr, hr', Bool.not_false, Bool.true_and, Bool.not_eq_false'] at hi hi'
  exact inputWord_eq_iff.mpr ⟨hr'.trans hr.symm, hi'.trans hi.symm, hbyte⟩

/-- A digit is `0011dddd` with its operand in the low half (R47). -/
theorem digitOf_encodes : ∀ c : Byte, isDigit c = true →
    0x30#8 ||| (digitOf c).setWidth 8 = c := by decide

/-- A row of the scan encodes as the byte it came from (R73, R74). -/
theorem encode_of_decodeScan {b : Byte} {i : Instr} (h : decodeScan b = .ok i) :
    encode i = .scanByte b := by
  unfold decodeScan at h
  split_ifs at h with hterm hascii
  · cases h
    rw [(isTerm_iff b).mp hterm, encode]
  · cases h
    rfl

theorem encode_of_decodeText {b : Byte} {i : Instr} (h : decodeText b = .ok i) :
    encode i = .textByte b := by
  unfold decodeText at h
  split_ifs at h with hws
  cases h
  rfl

/-- The class of a token character encodes as the character (R47). -/
theorem encode_decodeChar (c : Byte) : encode (decodeChar c) = .tokenChar c := by
  obtain ⟨hlo, hhi, hd⟩ | ⟨hc, hd⟩ | ⟨hc, hd⟩ | ⟨hc, hd⟩ | ⟨-, -, -, -, hd⟩ := decodeChar_cases c
  · rw [hd, encode, digitOf_encodes c (isDigit_iff.mpr ⟨hlo, hhi⟩)]
  · rw [hd, encode, (byte_eq_iff (by decide)).mpr hc]
  · rw [hd, encode, (byte_eq_iff (by decide)).mpr hc]
  · rw [hd, encode, (byte_eq_iff (by decide)).mpr hc]
  · rw [hd, encode]

/-! ### The packet bytes (R46, R48, R73 to R75) -/

theorem isTerm_iff_toNat {b : Byte} : isTerm b = true ↔ b.toNat = 0x0D :=
  (isTerm_iff b).trans (byte_eq_iff (by decide))

/-- WS is the controls 0x09 to 0x0D and the space (R46). -/
theorem isWs_iff_toNat {b : Byte} :
    isWs b = true ↔ (0x09 ≤ b.toNat ∧ b.toNat ≤ 0x0D) ∨ b.toNat = 0x20 := by
  have heq (n : Nat) (hn : n < 256) : (b == BitVec.ofNat 8 n) = true ↔ b.toNat = n :=
    beq_iff_eq.trans (byte_eq_iff hn)
  simp only [isWs, Bool.or_eq_true, heq 0x09 (by decide), heq 0x0A (by decide),
    heq 0x0B (by decide), heq 0x0C (by decide), heq 0x0D (by decide), heq 0x20 (by decide)]
  omega

theorem decodeScan_eq_txtTerm_iff {b : Byte} : decodeScan b = .ok .txtTerm ↔ isTerm b = true := by
  unfold decodeScan
  split_ifs with hterm hascii <;> simp [hterm]

theorem decodeScan_eq_txtNonAscii_iff {b : Byte} :
    decodeScan b = .ok (.txtNonAscii b) ↔ isAscii b = false := by
  refine ⟨fun h => ?_, decodeScan_nonAscii⟩
  simpa [Instr.wf] using decodeScan_wf h

theorem decodeText_eq_tokWs_iff {b : Byte} : decodeText b = .ok (.tokWs b) ↔ isWs b = true := by
  unfold decodeText
  split_ifs with hws <;> simp [hws]

end Sys2Proof.Machine

end

section

open Sys2Proof Sys2Proof.Machine

/-- Settles O1: one row at a time; the row's operand condition is the test of the decoder's arm. -/
theorem decodeOfEncodeIsTheInstruction : Obligations.DecodeOfEncodeIsTheInstruction := by
  intro i hwf
  cases i with
  | feedData b =>
    have hb : isTerm b = false := by simpa [Instr.wf] using hwf
    simp [encode, decodeInput, decodeWord_feedWord, hb]
  | txtNonAscii b => exact decodeScan_nonAscii (by simpa [Instr.wf] using hwf)
  | tokWs b => exact decodeText_eq_tokWs_iff.mpr hwf
  | pcDigit d => exact congrArg Except.ok (decodeChar_of_digit d (by simpa [Instr.wf] using hwf))
  | pcOther c => exact congrArg Except.ok (decodeChar_other hwf)
  | reset => rfl
  | idle => rfl
  | feedTerm => rfl
  | txtTerm => rfl
  | pcPoint => rfl
  | pcPlus => rfl
  | pcMinus => rfl

/-- Settles O2: an input word by `decodeWord_cases`, RESET and IDLE being its two exceptions; a byte is
the encoding of its row at every stage. -/
theorem decodedInputIsTheEncoding : Obligations.DecodedInputIsTheEncoding := by
  intro inp i h
  cases inp with
  | word w =>
    obtain rfl : decodeWord w = i := Except.ok.inj h
    obtain ⟨hr, -, hd⟩ | ⟨-, hi, hd⟩ | ⟨hr, hi, ⟨ht, hd⟩ | ⟨-, hd⟩⟩ := decodeWord_cases w
    · exact .inr (.inl ⟨hd, w, rfl, hr⟩)
    · simp only [isIdleWord, Bool.and_eq_true, Bool.not_eq_true'] at hi
      exact .inr (.inr ⟨hd, w, rfl, hi⟩)
    · refine .inl ?_
      rw [hd, encode, eq_feedTermWord_iff.mpr ⟨feedMask_iff.mpr ⟨hr, hi⟩, ht⟩]
    · exact .inl (by rw [hd, encode, feedWord_inByte hr hi])
  | scanByte b => exact .inl (encode_of_decodeScan h)
  | textByte b => exact .inl (encode_of_decodeText h)
  | tokenChar c =>
    obtain rfl : decodeChar c = i := Except.ok.inj h
    exact .inl (encode_decodeChar c)

/-- Settles O60: the words of the base statements by `decodeWord_feedWord`; a pseudo-statement is the base
statement's one word for each byte or repetition. -/
theorem stimulusExpandsToItsOperations : Obligations.StimulusExpandsToItsOperations := by
  refine ⟨rfl, rfl, fun b => ?_, fun bs => ?_, fun bs => ?_, fun n b => ?_, fun n => ?_⟩
  · simp only [expandStmt, List.map_cons, List.map_nil, decodeWord_feedWord, isTerm_iff_toNat]
  · exact List.map_eq_flatMap
  · exact List.map_eq_flatMap
  · exact List.flatten_replicate_singleton.symm
  · exact List.flatten_replicate_singleton.symm

/-- Settles O4: each written-out word is run through the decoder. -/
theorem writtenOutWordsDecode : Obligations.WrittenOutWordsDecode :=
  ⟨rfl, rfl, rfl, rfl, rfl, rfl, rfl, rfl, rfl, rfl, rfl, rfl⟩

/-- Settles O6: each stage's row is its class test, and each test is a range of byte values. -/
theorem packetByteDecodesByClass : Obligations.PacketByteDecodesByClass := fun _ =>
  ⟨decodeScan_eq_txtTerm_iff.trans isTerm_iff_toNat,
    decodeScan_eq_txtNonAscii_iff.trans (by rw [← Bool.not_eq_true, isAscii_iff]; omega),
    decodeText_eq_tokWs_iff.trans isWs_iff_toNat, isAscii_iff⟩

end

/-! PROOFS of the other family, the step: what every step can do, the invariant (`10_state.md`), the cells
a FEED writes (R19), the exclusion of events (R110) and the separation of the units (R30). -/

section

namespace Sys2Proof.Machine

/-! ### What a step can do -/

/-- A step runs a well-formed instruction or passes a byte that has no row, on the state with its input
taken (R59). -/
theorem step_cases {s t : State} (h : step s = .next t) :
    (∃ i : Instr, i.wf = true ∧ exec i (takeInput s) = .next t) ∨
      ∃ b, passPlain b (takeInput s) = .next t := by
  unfold step at h
  split at h
  · rename_i i hi
    exact .inl ⟨i, decodeInput_wf hi, h⟩
  · exact .inr ⟨_, h⟩

/-- The strobes cleared and the units' registers replaced leave the block as it was. -/
theorem sameBlock_units (s : State) (r : Scan) (k : Tokens) (q : Parser) :
    SameBlock s (setParser q (setToks k (setScan r (beginStep s)))) :=
  ⟨rfl, rfl, rfl, rfl, rfl, rfl⟩

theorem quiet_units (s : State) (r : Scan) (k : Tokens) (q : Parser) :
    Quiet (setParser q (setToks k (setScan r (beginStep s)))) := quiet_beginStep s

/-- A FEED's update of BUF and LEN raises no output. -/
theorem quiet_write (s : State) (n : Nat) (m : Memory) :
    Quiet (setLen n (setBuf m (beginStep s))) := quiet_beginStep s

/-- A byte that has no row only moves its stage on (log entry 3). -/
theorem passPlain_sameBlock {b : PlainByte} {s t : State} (h : passPlain b s = .next t) :
    SameBlock s t ∧ Quiet t := by
  obtain ⟨-, r, k, rfl⟩ := passPlain_effect h
  exact ⟨sameBlock_units s r k s.parser, quiet_units s r k s.parser⟩

/-- A row of a unit leaves the block alone (R30, log entry 3). -/
theorem exec_unit_sameBlock {s t : State} {i : Instr} (h : exec i s = .next t)
    (hi : ¬∃ w, encode i = .word w) : SameBlock s t ∧ Quiet t := by
  obtain ⟨-, heff⟩ := exec_effect h
  cases heff with
  | reset _ => exact absurd ⟨_, rfl⟩ hi
  | idle _ => exact absurd ⟨_, rfl⟩ hi
  | unit _ r k q _ ht => exact ht ▸ ⟨sameBlock_units s r k q, quiet_units s r k q⟩
  | discard _ b hfeed _ _ _ =>
    obtain ⟨rfl, -⟩ | rfl := hfeed
    · exact absurd ⟨_, rfl⟩ hi
    · exact absurd ⟨_, rfl⟩ hi
  | keep b _ _ _ => exact absurd ⟨_, rfl⟩ hi
  | complete p _ _ _ _ => exact absurd ⟨_, rfl⟩ hi

/-- An operation of the block other than RESET leaves the units alone (R30). -/
theorem exec_word_sameOutside {s t : State} {i : Instr} (h : exec i s = .next t)
    (hw : ∃ w, encode i = .word w) (hi : i ≠ .reset) : SameOutside s t := by
  obtain ⟨-, heff⟩ := exec_effect h
  cases heff with
  | reset _ => exact absurd rfl hi
  | idle ht => exact ht ▸ ⟨rfl, rfl, rfl, rfl, rfl⟩
  | unit _ r k q hnw _ => exact absurd hw hnw
  | discard _ b _ _ _ ht => exact ht ▸ (sameOutside_write s _ _).emitOvf
  | keep b _ _ ht => exact ht ▸ sameOutside_write s _ _
  | complete p _ _ _ ht => exact ht ▸ (sameOutside_write s _ _).report _

/-- No instruction changes the configuration or the waiting inputs (R118, log entries 1 and 2). -/
theorem exec_cfg_inputs {s t : State} {i : Instr} (h : exec i s = .next t) :
    t.cfg = s.cfg ∧ t.inputs = s.inputs := by
  by_cases hw : ∃ w, encode i = .word w
  · by_cases hi : i = .reset
    · subst hi
      obtain ⟨-, rfl⟩ := exec_reset_eq_next.mp h
      exact ⟨rfl, rfl⟩
    · obtain ⟨hcfg, hinputs, -⟩ := exec_word_sameOutside h hw hi
      exact ⟨hcfg, hinputs⟩
  · obtain ⟨⟨hcfg, hinputs, -⟩, -⟩ := exec_unit_sameBlock h hw
    exact ⟨hcfg, hinputs⟩

/-! ### The cells a step writes (R19) -/

theorem exec_feedData_wroteCell {s t : State} {b : Byte} (h : exec (.feedData b) s = .next t) :
    WroteCell s t s.len b := by
  obtain ⟨-, hbody⟩ := exec_feedData_eq_next.mp h
  obtain ⟨-, ⟨-, rfl⟩ | ⟨-, rfl⟩⟩ := feedDataBody_eq_ok.mp hbody
  · exact wroteCell_of_buf rfl
  · exact wroteCell_of_buf rfl

theorem exec_feedTerm_buf {s t : State} (h : exec .feedTerm s = .next t) :
    t.buf = memWrite s.buf s.len termByte := by
  obtain ⟨-, hbody⟩ := exec_feedTerm_eq_next.mp h
  obtain ⟨-, ⟨-, rfl⟩ | ⟨-, p, -, rfl⟩⟩ := feedTermBody_eq_ok.mp hbody
  · rfl
  · exact report_buf _ _

theorem exec_idle_buf {s t : State} (h : exec .idle s = .next t) : t.buf = s.buf := by
  rw [(exec_idle_eq_next.mp h).2, beginStep_buf]

theorem exec_unit_buf {s t : State} {i : Instr} (h : exec i s = .next t)
    (hi : ¬∃ w, encode i = .word w) : t.buf = s.buf := by
  obtain ⟨⟨-, -, hbuf, -⟩, -⟩ := exec_unit_sameBlock h hi
  exact hbuf

/-! ### Strobes (R25, R110) -/

theorem Quiet.strobesExclusive {s : State} (h : Quiet s) : StrobesExclusive s := by
  obtain ⟨hmeas, herr, -, -, hovf⟩ := h
  simp [StrobesExclusive, hmeas, herr]

theorem Quiet.strobesExclusive_emitOvf {s : State} (h : Quiet s) : StrobesExclusive (emitOvf s) := by
  obtain ⟨hmeas, herr, -⟩ := h
  simp [StrobesExclusive, hmeas, herr]

theorem Quiet.strobesExclusive_report {s : State} (h : Quiet s) (r : Except ErrKind Measurement) :
    StrobesExclusive (report r s) := by
  obtain ⟨hmeas, herr, -, -, hovf⟩ := h
  cases r with
  | ok m => simp [StrobesExclusive, herr, hovf]
  | error k => simp [StrobesExclusive, hmeas, hovf]

/-- A step raises at most the one strobe of its event, since it begins with all of them cleared. -/
theorem exec_strobesExclusive {s t : State} {i : Instr} (h : exec i s = .next t) :
    StrobesExclusive t := by
  obtain ⟨-, heff⟩ := exec_effect h
  cases heff with
  | reset ht => exact ht ▸ (quiet_resetState s).strobesExclusive
  | idle ht => exact ht ▸ (quiet_beginStep s).strobesExclusive
  | unit _ r k q _ ht => exact ht ▸ (quiet_units s r k q).strobesExclusive
  | discard _ b _ _ _ ht => exact ht ▸ (quiet_write s _ _).strobesExclusive_emitOvf
  | keep b _ _ ht => exact ht ▸ (quiet_write s _ _).strobesExclusive
  | complete p _ _ _ ht => exact ht ▸ (quiet_write s _ _).strobesExclusive_report _

/-- OVF_STB is raised by a FEED only (R107). -/
theorem exec_ovfStb_of_not_feed {s t : State} {i : Instr} (h : exec i s = .next t)
    (hterm : i ≠ .feedTerm) (hdata : ∀ b, i ≠ .feedData b) : t.ovfStb = false := by
  obtain ⟨-, heff⟩ := exec_effect h
  cases heff with
  | reset ht => simp [ht]
  | idle ht => simp [ht]
  | unit _ r k q _ ht => simp [ht]
  | discard _ b hfeed _ _ _ => exact (hfeed.elim (fun e => hterm e.1) (hdata b)).elim
  | keep b _ _ _ => exact absurd rfl (hdata b)
  | complete p _ _ _ _ => exact absurd rfl hterm

/-! ### The packets of the framer path (`41_decoder.md` section 5) -/

/-- A framed packet: bytes other than the terminator, and the terminator. -/
def Framed (p : List Byte) : Prop := ∃ q, p = q ++ [termByte] ∧ ∀ b ∈ q, isTerm b = false

/-- A framed packet ends in the terminator, so its decode never misses one (R72). -/
theorem Framed.decode_ne_missingTerminator {p : List Byte} (h : Framed p) (c : Config) :
    decode c p ≠ .error .missingTerminator := by
  obtain ⟨q, rfl, -⟩ := h
  by_cases hlen : (q ++ [termByte]).length = 43
  · have hq : q.length = 42 := by simpa using hlen
    exact (decode_ne_of_terminated c hlen (by simp [← hq, termByte])).2
  · simp [decode_of_length_ne hlen]

/-- The record of a framed packet: the only terminator is the last byte, at offset 42 (R24). -/
theorem Framed.recordOk {c : Config} {p : List Byte} {m : Measurement} (h : Framed p)
    (hd : decode c p = .ok m) : RecordOk c m := by
  obtain ⟨q, rfl, hq⟩ := h
  obtain ⟨hlen, -, ha, _, _, _, v, -, -, rfl⟩ := decode_eq_ok hd
  have hq42 : q.length = 42 := by simpa using hlen
  have hscan := scanPacket_split q [] termByte rfl hq
  refine ⟨hd, by simp [assemble, tidyLength, hscan, hq42], fun i hi => ?_⟩
  have hmem : (q ++ [termByte]).getD i 0#8 ∈ q := by
    rw [List.getD_append _ _ _ _ (by omega), List.getD_eq_getElem _ _ (by omega)]
    exact List.getElem_mem _
  rw [nonAsciiInSpan, hscan, List.any_eq_false] at ha
  have hascii : isAscii ((q ++ [termByte]).getD i 0#8) = true := by simpa using ha _ hmem
  exact ⟨hq _ hmem, hascii⟩

/-! ### The invariant, part by part -/

/-- The part of the invariant about BUF and LEN (R20, R21). -/
def FramerInv (s : State) : Prop :=
  Memory.wf s.buf = true ∧ (∀ a, s.cfg.capacity ≤ a → memRead s.buf a = none) ∧
    s.len < s.cfg.capacity ∧ ∀ i, i < s.len → ∃ b, memRead s.buf i = some b ∧ isTerm b = false

/-- The part of the invariant about MEAS and MEAS_VALID (R24). -/
def MeasInv (s : State) : Prop :=
  s.measValid = s.meas.isSome ∧ ∀ m, s.meas = some m → RecordOk s.cfg m

theorem blockInv_iff {s : State} :
    BlockInv s ↔ configOk s.cfg = true ∧ FramerInv s ∧ MeasInv s ∧ StrobesExclusive s ∧
      ErrorOutputsOk s := by
  simp only [BlockInv, FramerInv, MeasInv, and_assoc]

theorem Quiet.errorOutputsOk {s : State} (h : Quiet s) : ErrorOutputsOk s := by
  obtain ⟨-, herr, hcode, hsub, -⟩ := h
  simp [ErrorOutputsOk, herr, hcode, hsub]

/-- A step that changes no element of R17 but the strobes, which it clears, keeps the invariant. -/
theorem BlockInv.of_sameBlock {s t : State} (h : BlockInv s) (hsame : SameBlock s t)
    (hquiet : Quiet t) : BlockInv t := by
  obtain ⟨hcfg, -, hbuf, hlen, hmeas, hvalid⟩ := hsame
  obtain ⟨hc, hframer, hrecord, -, -⟩ := blockInv_iff.mp h
  refine blockInv_iff.mpr ⟨hcfg ▸ hc, ?_, ?_, hquiet.strobesExclusive, hquiet.errorOutputsOk⟩
  · rw [FramerInv, hcfg, hbuf, hlen]
    exact hframer
  · rw [MeasInv, hcfg, hmeas, hvalid]
    exact hrecord

/-- The empty BUF of RESET is in order under every admitted capacity (R8, R118). -/
theorem framerInv_resetState {s : State} (hc : configOk s.cfg = true) :
    FramerInv (resetState s) := by
  have h15 := capacity_of_configOk hc
  refine ⟨rfl, fun _ _ => rfl, ?_, by simp⟩
  rw [resetState_len, resetState_cfg]
  omega

theorem measInv_resetState (s : State) : MeasInv (resetState s) := ⟨rfl, by simp⟩

/-- RESET leaves a state that meets the invariant (R118). -/
theorem blockInv_resetState {s : State} (hc : configOk s.cfg = true) : BlockInv (resetState s) :=
  blockInv_iff.mpr ⟨hc, framerInv_resetState hc, measInv_resetState s,
    (quiet_resetState s).strobesExclusive, (quiet_resetState s).errorOutputsOk⟩

/-- One write at LEN, after which LEN is 0 or counts a byte other than the terminator (R60 to R62). -/
theorem FramerInv.write {s t : State} {v : Byte} (h : FramerInv s) (hcfg : t.cfg = s.cfg)
    (hbuf : t.buf = memWrite s.buf s.len v)
    (hlen : t.len = 0 ∨ (t.len = s.len + 1 ∧ s.len + 1 < s.cfg.capacity ∧ isTerm v = false)) :
    FramerInv t := by
  obtain ⟨hwf, hroom, hlt, hcells⟩ := h
  rw [FramerInv, hcfg, hbuf]
  refine ⟨memWrite_wf _ _ _ hwf, fun a ha => ?_, by omega, fun i hi => ?_⟩
  · rw [memRead_memWrite_ne _ _ _ (by omega), hroom a ha]
  · obtain hlen | ⟨hlen, -, hv⟩ := hlen
    · omega
    · by_cases hlast : i = s.len
      · exact ⟨v, by rw [hlast, memRead_memWrite_self], hv⟩
      · rw [memRead_memWrite_ne _ _ _ hlast]
        exact hcells i (by omega)

/-- A well-formed instruction keeps BUF and LEN in order: a kept byte is not the terminator (R61). -/
theorem exec_framerInv {s t : State} {i : Instr} (h : exec i s = .next t) (hwf : i.wf = true)
    (hs : FramerInv s) : FramerInv t := by
  obtain ⟨hc, heff⟩ := exec_effect h
  have hcfg : t.cfg = s.cfg := (exec_cfg_inputs h).1
  cases heff with
  | reset ht => exact ht ▸ framerInv_resetState hc
  | idle ht => exact ht ▸ hs
  | unit _ r k q _ ht => exact ht ▸ hs
  | discard _ b _ _ _ ht => exact hs.write hcfg (by rw [ht]; rfl) (.inl (by rw [ht]; rfl))
  | keep b hlt hne ht =>
    have hb : isTerm b = false := by simpa [Instr.wf] using hwf
    exact hs.write hcfg (by rw [ht]; rfl) (.inr ⟨by rw [ht]; rfl, by omega, hb⟩)
  | complete p _ _ _ ht =>
    exact hs.write hcfg (by rw [ht, report_buf]; rfl) (.inl (by rw [ht, report_len]; rfl))

/-- From a state whose partial packet holds no terminator, the packet that a FEED_TERM completes is
framed (R21, R62). -/
theorem framed_of_bufRead {s t : State} {p : List Byte} (hs : FramerInv s)
    (h : exec .feedTerm s = .next t) (hp : bufRead (s.len + 1) t = .ok p) : Framed p := by
  obtain ⟨-, -, -, hcells⟩ := hs
  obtain ⟨q, hq, hterm⟩ := holds_of_written hcells
  have hread := bufRead_of_holds hq
  rw [bufRead_congr _ (by rw [exec_feedTerm_buf h, setBuf_buf] : _ = t.buf), hp] at hread
  exact ⟨q, Except.ok.inj hread, hterm⟩

/-- MEAS holds a good record or none: a publication's is a framed packet's, and no other step than RESET
writes MEAS (R87). -/
theorem exec_measInv {s t : State} {i : Instr} (h : exec i s = .next t) (hs : FramerInv s)
    (hm : MeasInv s) : MeasInv t := by
  obtain ⟨hvalid, hrecord⟩ := hm
  by_cases hi : i = .reset
  · subst hi
    obtain ⟨-, rfl⟩ := exec_reset_eq_next.mp h
    exact measInv_resetState _
  · rw [MeasInv, (exec_cfg_inputs h).1, exec_measValid h hi]
    cases hstb : t.measStb with
    | false =>
      rw [exec_keeps_meas h hi hstb, Bool.or_false]
      exact ⟨hvalid, hrecord⟩
    | true =>
      obtain ⟨rfl, p, m, hp, hd, ht⟩ := exec_measStb_publishes h hstb
      have hmeas : t.meas = some m := by rw [ht, publish_meas]
      rw [hmeas, Bool.or_true]
      refine ⟨rfl, fun m' hm' => ?_⟩
      obtain rfl : m = m' := Option.some.inj hm'
      exact (framed_of_bufRead hs h hp).recordOk hd

theorem errCode_framed {k : ErrKind} (h : k ≠ .missingTerminator) :
    errCode k = 1#3 ∨ errCode k = 3#3 ∨ errCode k = 4#3 := by
  cases k with
  | missingTerminator => exact absurd rfl h
  | _ => simp [errCode]

/-- The error outputs hold a code of the framer path, which MissingTerminator is not (R54). -/
theorem exec_errorOutputsOk {s t : State} {i : Instr} (h : exec i s = .next t) (hs : FramerInv s) :
    ErrorOutputsOk t := by
  refine ⟨exec_errOutputs_zero h, fun he => ?_⟩
  obtain ⟨rfl, -⟩ := exec_event_reports h (.inr he)
  obtain ⟨p, k, hp, hd, ht⟩ := exec_errStb_emits h he
  have hk : k ≠ .missingTerminator := fun hk =>
    (framed_of_bufRead hs h hp).decode_ne_missingTerminator s.cfg (hk ▸ hd)
  rw [ht, emitErr_errCode, emitErr_errSub]
  exact ⟨errCode_framed hk, errCode_of_errSub⟩

/-- Every well-formed instruction keeps the invariant. -/
theorem exec_blockInv {s t : State} {i : Instr} (hs : BlockInv s) (hwf : i.wf = true)
    (h : exec i s = .next t) : BlockInv t := by
  obtain ⟨hc, hframer, hmeas, -, -⟩ := blockInv_iff.mp hs
  exact blockInv_iff.mpr ⟨(exec_cfg_inputs h).1 ▸ hc, exec_framerInv h hwf hframer,
    exec_measInv h hframer hmeas, exec_strobesExclusive h, exec_errorOutputsOk h hframer⟩

theorem step_blockInv {s t : State} (hs : BlockInv s) (h : step s = .next t) : BlockInv t := by
  obtain ⟨i, hwf, hi⟩ | ⟨b, hb⟩ := step_cases h
  · exact exec_blockInv hs.takeInput hwf hi
  · obtain ⟨hsame, hquiet⟩ := passPlain_sameBlock hb
    exact hs.takeInput.of_sameBlock hsame hquiet

/-! ### The block does not read the units (R30) -/

/-- A state with other values in the units' registers. -/
def withUnits (r : Scan) (k : Tokens) (q : Parser) (s : State) : State :=
  { s with scan := r, toks := k, parser := q }

theorem report_withUnits (d : Except ErrKind Measurement) (r : Scan) (k : Tokens) (q : Parser)
    (s : State) : report d (withUnits r k q s) = withUnits r k q (report d s) := by
  cases d <;> rfl

theorem feedDataBody_withUnits {b : Byte} {s t : State} (r : Scan) (k : Tokens) (q : Parser)
    (h : feedDataBody b s = .ok t) :
    feedDataBody b (withUnits r k q s) = .ok (withUnits r k q t) := by
  obtain ⟨hlt, ⟨hlast, rfl⟩ | ⟨hne, rfl⟩⟩ := feedDataBody_eq_ok.mp h
  · exact feedDataBody_eq_ok.mpr ⟨hlt, .inl ⟨hlast, rfl⟩⟩
  · exact feedDataBody_eq_ok.mpr ⟨hlt, .inr ⟨hne, rfl⟩⟩

theorem feedTermBody_withUnits {s t : State} (r : Scan) (k : Tokens) (q : Parser)
    (h : feedTermBody s = .ok t) :
    feedTermBody (withUnits r k q s) = .ok (withUnits r k q t) := by
  obtain ⟨hlt, ⟨hlast, rfl⟩ | ⟨hne, p, hp, rfl⟩⟩ := feedTermBody_eq_ok.mp h
  · exact feedTermBody_eq_ok.mpr ⟨hlt, .inl ⟨hlast, rfl⟩⟩
  · exact feedTermBody_eq_ok.mpr ⟨hlt, .inr ⟨hne, p, hp, (report_withUnits _ r k q _).symm⟩⟩

/-- The block's operations act on a state with other units' registers as on the state itself; RESET
overwrites them. -/
theorem exec_withUnits {s t : State} {i : Instr} (r : Scan) (k : Tokens) (q : Parser)
    (hw : ∃ w, encode i = .word w) (h : exec i s = .next t) :
    ∃ r' k' q', exec i (withUnits r k q s) = .next (withUnits r' k' q' t) := by
  obtain ⟨w, hw⟩ := hw
  cases i with
  | reset =>
    obtain ⟨hc, rfl⟩ := exec_reset_eq_next.mp h
    exact ⟨_, _, _, exec_reset_eq_next.mpr ⟨hc, rfl⟩⟩
  | idle =>
    obtain ⟨hc, rfl⟩ := exec_idle_eq_next.mp h
    exact ⟨r, k, q, exec_idle_eq_next.mpr ⟨hc, rfl⟩⟩
  | feedTerm =>
    obtain ⟨hc, hbody⟩ := exec_feedTerm_eq_next.mp h
    exact ⟨r, k, q, exec_feedTerm_eq_next.mpr ⟨hc, feedTermBody_withUnits r k q hbody⟩⟩
  | feedData b =>
    obtain ⟨hc, hbody⟩ := exec_feedData_eq_next.mp h
    exact ⟨r, k, q, exec_feedData_eq_next.mpr ⟨hc, feedDataBody_withUnits r k q hbody⟩⟩
  | _ => cases hw

/-! ### The input of a step (R59) -/

theorem step_of_waiting {s : State} {inp : Input} {rest : List Input} (h : s.inputs = inp :: rest) :
    nextInput s = inp ∧ takeInput s = { s with inputs := rest } := by
  simp [nextInput, takeInput, h]

theorem takeInput_of_empty {s : State} (h : s.inputs = []) : takeInput s = s := by
  obtain ⟨_, inputs⟩ := s
  obtain rfl : inputs = [] := h
  rfl

end Sys2Proof.Machine

end

section

open Sys2Proof Sys2Proof.Machine

/-- Settles O9: an instruction keeps each part of the invariant (`exec_blockInv`), the record's part
because the packet a FEED_TERM completes is framed; a byte without a row leaves the block alone. -/
theorem stepKeepsTheInvariant : Obligations.StepKeepsTheInvariant := fun _ _ => step_blockInv

/-- Settles O11: the step takes the oldest input, and neither an instruction nor a byte without a row
touches the configuration or what is left waiting. -/
theorem stepKeepsTheConfiguration : Obligations.StepKeepsTheConfiguration := by
  intro s t h
  obtain ⟨i, -, hi⟩ | ⟨b, hb⟩ := step_cases h
  · exact exec_cfg_inputs hi
  · obtain ⟨⟨hcfg, hinputs, -⟩, -⟩ := passPlain_sameBlock hb
    exact ⟨hcfg, hinputs⟩

/-- Settles O18: the one write of each FEED, the empty BUF of RESET, and the frame of the others. -/
theorem feedWritesExactlyOneCell : Obligations.FeedWritesExactlyOneCell := by
  refine ⟨fun s t i h => ?_, memRead_nil⟩
  cases i with
  | feedData b => exact exec_feedData_wroteCell h
  | feedTerm => exact wroteCell_of_buf (exec_feedTerm_buf h)
  | reset =>
    obtain ⟨-, rfl⟩ := exec_reset_eq_next.mp h
    exact memRead_nil
  | idle => exact exec_idle_buf h
  | _ => exact exec_unit_buf h (by simp [encode])

/-- Settles O26: every step begins with the strobes cleared and has at most one event; a publication or
an error is FEED_TERM's report. -/
theorem atMostOneEventInAStep : Obligations.AtMostOneEventInAStep := by
  refine fun s t i h => ⟨exec_strobesExclusive h, fun hi => ⟨?_, ?_⟩, exec_ovfStb_of_not_feed h⟩
  · exact Bool.eq_false_iff.mpr fun hm => hi (exec_event_reports h (.inl hm)).1
  · exact Bool.eq_false_iff.mpr fun he => hi (exec_event_reports h (.inr he)).1

/-- Settles O27: the next state meets the invariant, whose codes and record are those of framed
packets. -/
theorem framerPathHasOneTerminator : Obligations.FramerPathHasOneTerminator := by
  intro s t hs h
  obtain ⟨-, -, ⟨-, hrecord⟩, -, hzero, hcodes⟩ := blockInv_iff.mp (step_blockInv hs h)
  refine ⟨fun hcode => ?_, fun m _ hm => ?_⟩
  · cases he : t.errStb with
    | false => exact absurd ((hzero he).1.symm.trans hcode) (by decide)
    | true =>
      obtain ⟨hcodes, -⟩ := hcodes he
      rw [hcode] at hcodes
      exact absurd hcodes (by decide)
  · obtain ⟨hd, htidy, -⟩ := hrecord m hm
    obtain ⟨-, hterm, -⟩ := decode_eq_ok hd
    exact ⟨htidy, getD_eq_term_iff.mpr hterm⟩

/-- Settles O57: the frames of the units' rows and of the block's operations, and `exec_withUnits`. -/
theorem unitsAndBlockAreSeparate : Obligations.UnitsAndBlockAreSeparate := by
  refine ⟨fun s hc => ?_, fun s t i h hw hi => ?_, fun s t i => exec_unit_sameBlock,
    fun s t r k q i hw h => ?_⟩
  · exact ⟨_, exec_reset_eq_next.mpr ⟨hc, rfl⟩, rfl, rfl, rfl, rfl⟩
  · obtain ⟨-, -, hunits⟩ := exec_word_sameOutside h hw hi
    exact hunits
  · obtain ⟨r', k', q', hu⟩ := exec_withUnits r k q hw h
    exact ⟨_, hu, rfl, rfl, rfl, rfl, rfl, rfl, rfl, rfl, rfl⟩

/-- Settles O7: `step` looks at the oldest input only, which is IDLE's word when there is none. -/
theorem stepRunsTheDecodedInput : Obligations.StepRunsTheDecodedInput := by
  refine ⟨fun s inp rest i hin hi => ?_, fun s hin => ?_, fun s b rest hin hb hc => ?_,
    fun s b rest hin hb hc => ?_⟩
  · obtain ⟨hnext, htake⟩ := step_of_waiting hin
    simp only [step, hnext, hi, htake]
  · simp only [step, nextInput, hin, takeInput_of_empty hin]
    rfl
  · obtain ⟨hnext, htake⟩ := step_of_waiting hin
    simp only [step, hnext, hb, htake]
    exact perform_ok_eq_next.mpr ⟨hc, rfl⟩
  · obtain ⟨hnext, htake⟩ := step_of_waiting hin
    simp only [step, hnext, hb, htake]
    exact perform_ok_eq_next.mpr ⟨hc, rfl⟩

/-- Settles O8: RESET's next state is `resetState`, which meets the invariant under every admitted
configuration; TCFG is one, and `State.reset` is the `resetState` under it. -/
theorem resetStateMeetsTheInvariant : Obligations.ResetStateMeetsTheInvariant := by
  refine ⟨fun s hc => ⟨blockInv_resetState hc, exec_reset_eq_next.mpr ⟨hc, rfl⟩⟩, ?_,
    fun s hcfg hin => ?_⟩
  · exact blockInv_resetState (s := State.reset) (by decide)
  · rw [resetState, hcfg, hin]
    rfl

end

/-! PROOFS of the other family, runs of input words: the events of a step (R109), IDLE words (R67), the
refinement to the framer on lists (R60 to R66) and the order of the fed bytes (R33). -/

section

namespace Sys2Proof.Machine

/-! ### The events of a step (R109, R110) -/

theorem Quiet.eventsAt_eq_nil {s : State} (h : Quiet s) : eventsAt s = [] := by
  obtain ⟨hmeas, herr, -, -, hovf⟩ := h
  simp [eventsAt, hmeas, herr, hovf]

theorem Quiet.eventsAt_emitOvf {s : State} (h : Quiet s) : eventsAt (emitOvf s) = [.overflow] := by
  obtain ⟨hmeas, herr, -⟩ := h
  simp [eventsAt, hmeas, herr]

/-- A report on cleared outputs is seen as the one event of its decode (R62). -/
theorem Quiet.eventsAt_report {s : State} (h : Quiet s) (r : Except ErrKind Measurement) :
    eventsAt (report r s) = [decodeEvent r] := by
  obtain ⟨hmeas, herr, -, -, hovf⟩ := h
  cases r with
  | ok m => simp [eventsAt, decodeEvent, herr, hovf]
  | error k => simp [eventsAt, decodeEvent, hmeas, hovf]

/-! ### IDLE words (R63, R67) -/

/-- Under a refused configuration no word has an event (R120). -/
theorem eventsOf_of_not_configOk {s : State} (h : configOk s.cfg = false) (ws : List InputWord) :
    eventsOf ws s = [] := by
  cases ws with
  | nil => rfl
  | cons w rest => simp [eventsOf, exec_of_not_configOk _ h, nextState]

/-- The strobes of the step before do not reach the next one (R59). -/
theorem eventsOf_beginStep (ws : List InputWord) (s : State) :
    eventsOf ws (beginStep s) = eventsOf ws s := by
  cases ws with
  | nil => rfl
  | cons w rest => simp only [eventsOf, exec_beginStep]

/-- An IDLE word in front has no event and hides none (R67). -/
theorem eventsOf_idle {w : InputWord} (hw : isIdleWord w = true) (ws : List InputWord) (s : State) :
    eventsOf (w :: ws) s = eventsOf ws s := by
  cases hc : configOk s.cfg with
  | false => rw [eventsOf_of_not_configOk hc, eventsOf_of_not_configOk hc]
  | true =>
    have hstep : exec (decodeWord w) s = .next (beginStep s) :=
      decodeWord_idle hw ▸ exec_idle_eq_next.mpr ⟨hc, rfl⟩
    rw [eventsOf_cons hstep, (quiet_beginStep s).eventsAt_eq_nil, List.nil_append, eventsOf_beginStep]

/-! ### The framer on lists (R60 to R66) -/

theorem holdsPacket_nil {s : State} (h : s.len = 0) : HoldsPacket s [] :=
  ⟨h.symm, fun i hi => by omega⟩

/-- The FEED of a kept byte: the partial packet grows by it, with no event (R61). -/
theorem exec_feedData_extends {s : State} {q : List Byte} (b : Byte) (hc : configOk s.cfg = true)
    (hl : s.len + 1 < s.cfg.capacity) (hq : HoldsPacket s q) :
    ∃ t, exec (.feedData b) s = .next t ∧ t.cfg = s.cfg ∧ t.len = s.len + 1 ∧
      HoldsPacket t (q ++ [b]) ∧ eventsAt t = [] :=
  ⟨_, exec_feedData_keep b hc (by omega) (by omega), rfl, rfl, HoldsPacket_write hq b,
    (quiet_write s _ _).eventsAt_eq_nil⟩

/-- A word that leaves the framer empty has one event or none, and the rest is framed from empty. -/
theorem eventsOf_of_emptied {w : InputWord} {ws : List InputWord} {s t : State} {c : Config}
    {es : List Event}
    (ih : ∀ u : State, u.cfg = c → u.len = 0 → eventsOf ws u = listFramer c [] ws)
    (h : exec (decodeWord w) s = .next t) (hcfg : t.cfg = c) (hlen : t.len = 0)
    (hes : eventsAt t = es) : eventsOf (w :: ws) s = es ++ listFramer c [] ws := by
  rw [eventsOf_cons h, hes, ih t hcfg hlen]

/-- The events of the block are those of the framer on lists, by induction over the words: each keeps
the partial packet in BUF equal to the list. -/
theorem eventsOf_eq_listFramer (ws : List InputWord) {s : State} {q : List Byte}
    (hc : configOk s.cfg = true) (hl : s.len < s.cfg.capacity) (hq : HoldsPacket s q) :
    eventsOf ws s = listFramer s.cfg q ws := by
  induction ws generalizing s q with
  | nil => rfl
  | cons w rest ih =>
    have h15 := capacity_of_configOk hc
    have hempty (u : State) (hcfg : u.cfg = s.cfg) (hlen : u.len = 0) :
        eventsOf rest u = listFramer s.cfg [] rest :=
      hcfg ▸ ih (hcfg ▸ hc) (by rw [hcfg, hlen]; omega) (holdsPacket_nil hlen)
    obtain ⟨hr, -, hd⟩ | ⟨hr, hi, -⟩ | ⟨hr, hi, hfeed⟩ := decodeWord_cases w
    · have hstep : exec (decodeWord w) s = .next (resetState (beginStep s)) :=
        hd ▸ exec_reset_eq_next.mpr ⟨hc, rfl⟩
      rw [eventsOf_of_emptied hempty hstep rfl rfl (quiet_resetState _).eventsAt_eq_nil]
      simp [listFramer, hr]
    · rw [eventsOf_idle hi, ih hc hl hq]
      simp [listFramer, hr, hi]
    · by_cases hlast : s.len = s.cfg.capacity - 1
      · have hi' : decodeWord w = .feedTerm ∨ ∃ b, decodeWord w = .feedData b :=
          hfeed.imp (·.2) fun h => ⟨_, h.2⟩
        obtain ⟨v, hstep⟩ := exec_feed_discard hc hlast hi'
        have hfull : q.length + 1 = s.cfg.capacity := by rw [hq.1]; omega
        rw [eventsOf_of_emptied hempty hstep rfl rfl (quiet_write s _ _).eventsAt_emitOvf]
        simp [listFramer, hr, hi, hfull]
      · have hroom : q.length + 1 ≠ s.cfg.capacity := by rw [hq.1]; omega
        obtain ⟨hterm, hd⟩ | ⟨hterm, hd⟩ := hfeed
        · have hstep := hd ▸ exec_feedTerm_complete hc hl hlast hq
          have hbyte : inByte w = termByte := by simpa [isTerm] using hterm
          rw [eventsOf_of_emptied hempty hstep (report_fields _ _).1 (report_len _ _)
            ((quiet_write s _ _).eventsAt_report _)]
          simp [listFramer, hr, hi, hroom, hbyte]
        · obtain ⟨t, hstep, hcfg, hlen, hheld, hquiet⟩ :=
            exec_feedData_extends (inByte w) hc (by omega) hq
          have hbyte : inByte w ≠ termByte := by simpa [isTerm] using hterm
          rw [eventsOf_cons (hd ▸ hstep), hquiet,
            ih (hcfg ▸ hc) (by rw [hcfg, hlen]; omega) hheld, hcfg]
          simp [listFramer, hr, hi, hroom, hbyte]

/-! ### Bytes fed one after another (R33) -/

theorem decodeWord_feedWord_data {b : Byte} (h : isTerm b = false) :
    decodeWord (feedWord b) = .feedData b := by
  rw [decodeWord_feedWord, h]
  rfl

/-- Bytes other than the terminator that fit below the boundary stand in BUF in the order fed. -/
theorem runWords_feeds {bs : List Byte} {s : State} {q : List Byte} (hc : configOk s.cfg = true)
    (hterm : ∀ b ∈ bs, isTerm b = false) (hroom : s.len + bs.length < s.cfg.capacity)
    (hq : HoldsPacket s q) :
    ∃ t, runWords (bs.map feedWord) s = some t ∧ HoldsPacket t (q ++ bs) := by
  induction bs generalizing s q with
  | nil => exact ⟨s, rfl, by simpa using hq⟩
  | cons b rest ih =>
    obtain ⟨hb, hrest⟩ := List.forall_mem_cons.mp hterm
    rw [List.length_cons] at hroom
    obtain ⟨u, hstep, hcfg, hlen, hheld, -⟩ := exec_feedData_extends b hc (by omega) hq
    obtain ⟨t, hrun, hall⟩ := ih (hcfg ▸ hc) hrest (by rw [hcfg, hlen]; omega) hheld
    rw [← decodeWord_feedWord_data hb] at hstep
    exact ⟨t, runWords_cons.mpr ⟨u, hstep, hrun⟩, by simpa using hall⟩

/-- On lists such bytes gather in the partial packet with no event. -/
theorem listFramer_feeds {c : Config} {bs q : List Byte} {ws : List InputWord}
    (hterm : ∀ b ∈ bs, isTerm b = false) (hroom : q.length + bs.length < c.capacity) :
    listFramer c q (bs.map feedWord ++ ws) = listFramer c (q ++ bs) ws := by
  induction bs generalizing q with
  | nil => simp
  | cons b rest ih =>
    obtain ⟨hb, hrest⟩ := List.forall_mem_cons.mp hterm
    obtain ⟨hr, hi, hbyte⟩ := feedWord_fields b
    have hne : b ≠ termByte := by simpa [isTerm] using hb
    rw [List.length_cons] at hroom
    have hbelow : q.length + 1 ≠ c.capacity := by omega
    have hkept : listFramer c q (feedWord b :: (rest.map feedWord ++ ws))
        = listFramer c (q ++ [b]) (rest.map feedWord ++ ws) := by
      simp [listFramer, hr, hi, hbyte, hne, hbelow]
    rw [List.map_cons, List.cons_append, hkept, ih hrest
      (by rw [List.length_append, List.length_singleton]; omega), List.append_assoc,
      List.singleton_append]

/-- On lists the terminator completes a partial packet that is below the boundary (R62). -/
theorem listFramer_term {c : Config} {q : List Byte} (h : q.length + 1 ≠ c.capacity) :
    listFramer c q [0x10D#10] = [decodeEvent (decode c (q ++ [termByte]))] := by
  have hr : isResetWord 0x10D#10 = false := rfl
  have hi : isIdleWord 0x10D#10 = false := rfl
  have hbyte : inByte 0x10D#10 = termByte := rfl
  simp [listFramer, hr, hi, hbyte, h]

end Sys2Proof.Machine

end

section

open Sys2Proof Sys2Proof.Machine

/-- Settles O28: word by word; an IDLE word in front changes no event (`eventsOf_idle`). -/
theorem idleWordsChangeNoEvents : Obligations.IdleWordsChangeNoEvents := by
  intro ws
  induction ws with
  | nil => exact fun _ => rfl
  | cons w rest ih =>
    intro s
    cases hw : isIdleWord w with
    | true => rw [eventsOf_idle hw, ih, List.filter_cons_of_neg (by simp [hw])]
    | false =>
      rw [List.filter_cons_of_pos (by simp [hw]), eventsOf, eventsOf]
      cases nextState (exec (decodeWord w) s) with
      | none => rfl
      | some t => exact congrArg (eventsAt t ++ ·) (ih t)

/-- Settles O29: `eventsOf_eq_listFramer`. -/
theorem blockRefinesTheListFramer : Obligations.BlockRefinesTheListFramer :=
  fun ws _ _ => eventsOf_eq_listFramer ws

/-- Settles O30: the events are those of the framer on lists, which gathers the bytes in order; the cells
are those of the run. -/
theorem fedBytesAreDecodedInArrivalOrder : Obligations.FedBytesAreDecodedInArrivalOrder := by
  intro s bs hc hlen hterm hroom
  have hnil := holdsPacket_nil hlen
  refine ⟨?_, ?_⟩
  · rw [eventsOf_eq_listFramer _ hc (by omega) hnil,
      listFramer_feeds hterm (by rw [List.length_nil]; omega), List.nil_append,
      listFramer_term (by omega)]
    rfl
  · obtain ⟨t, hrun, hlen', hcells⟩ := runWords_feeds hc hterm (by omega) hnil
    rw [List.nil_append] at hlen' hcells
    exact ⟨t, hrun, hlen'.symm, fun i hi => hcells i (by omega)⟩

end

/-! PROOFS of the other family, the decoder's units: the record's ranges (R22), the rows of the parser and
of the text stages (R73 to R75, R94 to R97), the number a token writes (R99), the bounded accumulator
(R100), and the stages stepped byte by byte (R89, R93). -/

section

namespace Sys2Proof.Machine

/-! ### The record's ranges (R22) -/

/-- The first terminator stands at offset 42 at the latest (R72, R73). -/
theorem tidyLength_le {p : List Byte} (hl : p.length = 43) (ht : p[42]? = some 0x0D#8) :
    tidyLength p ≤ 42 := by
  obtain ⟨q, -, -, -, hq, -, hk, -⟩ := packet_split hl ht
  omega

/-! ### The parser's transitions, phase by phase (R94 to R96) -/

theorem parserDigit_of_int {r : Parser} (d : Nat) (h : r.ph = .start ∨ r.ph = .signed ∨ r.ph = .int) :
    parserDigit d r = ⟨.int, r.neg, true, 10 * r.acc + d, r.scale⟩ := by
  rcases h with h | h | h <;> simp [parserDigit, h]

theorem parserDigit_of_frac {r : Parser} (d : Nat) (h : r.ph = .frac) :
    parserDigit d r = ⟨.frac, r.neg, true, 10 * r.acc + d, r.scale + 1⟩ := by
  simp [parserDigit, h]

theorem parserDigit_of_err {r : Parser} (d : Nat) (h : r.ph = .err) : parserDigit d r = r := by
  simp [parserDigit, h]

theorem parserPoint_of_frac {r : Parser} (h : r.ph = .frac ∨ r.ph = .err) :
    parserPoint r = { r with ph := .err } := by
  rcases h with h | h <;> simp [parserPoint, h]

theorem parserSign_of_start {r : Parser} (neg : Bool) (h : r.ph = .start) :
    parserSign neg r = { r with neg := neg, ph := .signed } := by
  simp [parserSign, h]

theorem parserSign_of_ne_start {r : Parser} (neg : Bool) (h : r.ph ≠ .start) :
    parserSign neg r = { r with ph := .err } := by
  unfold parserSign
  split
  case h_1 hstart => exact absurd hstart h
  all_goals rfl

/-- A row of the parser on State is the transition of its character's class (R93, log entry 3). -/
theorem exec_decodeChar (c : Byte) {s : State} (hc : configOk s.cfg = true) :
    exec (decodeChar c) s = .next (setParser (parserStep s.parser c) (beginStep s)) := by
  unfold decodeChar parserStep
  split_ifs
  · exact exec_pcDigit_eq_next.mpr ⟨hc, rfl⟩
  · exact exec_pcPoint_eq_next.mpr ⟨hc, rfl⟩
  · exact exec_pcPlus_eq_next.mpr ⟨hc, rfl⟩
  · exact exec_pcMinus_eq_next.mpr ⟨hc, rfl⟩
  · exact exec_pcOther_eq_next.mpr ⟨hc, rfl⟩

theorem parserResult_of_err {w : Nat} {r : Parser} (h : r.ph = .err) : parserResult w r = none := by
  simp [parserResult, h]

/-! ### The number a token writes (R99) -/

/-- Reading on from `a` shifts `a` past the digits that follow. -/
theorem digitsFrom_eq (a : Nat) (ds : List Byte) :
    digitsFrom a ds = a * 10 ^ ds.length + decimalValue ds := by
  have hvalue (xs : List Byte) : decimalValue xs = digitsFrom 0 xs := rfl
  rw [hvalue]
  induction ds generalizing a with
  | nil => simp
  | cons c rest ih =>
    rw [digitsFrom_cons, digitsFrom_cons, ih, ih (10 * 0 + (c.toNat - 0x30)), List.length_cons,
      pow_succ]
    ring

theorem decimalValue_append (xs ys : List Byte) :
    decimalValue (xs ++ ys) = decimalValue xs * 10 ^ ys.length + decimalValue ys :=
  (digitsFrom_append 0 xs ys).trans (digitsFrom_eq _ ys)

/-- The digit string with the point removed, divided by ten to the digits after it, is the number with
the point. -/
theorem decimalValue_div (xs ys : List Byte) :
    (decimalValue (xs ++ ys) : ℚ) / 10 ^ ys.length
      = decimalValue xs + decimalValue ys / 10 ^ ys.length := by
  rw [decimalValue_append]
  push_cast
  field_simp

/-! ### The bounded accumulator (R100) -/

/-- The bounded parser follows the exact one: it has the same registers, and `ovf` says that `acc` has
passed the bound; until then the register holds `acc`. -/
structure BoundedParser.Tracks (w : Nat) (b : BoundedParser) (r : Parser) : Prop where
  ph : b.ph = r.ph
  neg : b.neg = r.neg
  seen : b.seen = r.seen
  scale : b.scale = r.scale
  acc : (b.ovf = false ∧ b.reg = r.acc ∧ r.acc ≤ 2 ^ (w - 1)) ∨ (b.ovf = true ∧ 2 ^ (w - 1) < r.acc)

/-- A register of `W_MANT + 4` bits takes one more digit past the bound without wrapping. -/
theorem accumulate_lt {w acc d : Nat} (hw : 8 ≤ w) (hacc : acc ≤ 2 ^ (w - 1)) (hd : d < 16) :
    10 * acc + d < 2 ^ (w + 4) := by
  have hpow : 2 ^ (w + 4) = 32 * 2 ^ (w - 1) := by
    rw [show w + 4 = (w - 1) + 5 by omega, pow_add]
    omega
  have hpos : 0 < 2 ^ (w - 1) := Nat.two_pow_pos (w - 1)
  omega

/-- `boundedAccumulate` changes `reg` and `ovf` only, and as the exact accumulator moves. -/
theorem boundedAccumulate_tracks {w d : Nat} {b : BoundedParser} {r : Parser} (hw : 8 ≤ w)
    (hd : d < 16) (h : b.Tracks w r) :
    (boundedAccumulate w d b).Tracks w { r with acc := 10 * r.acc + d } := by
  obtain ⟨hph, hneg, hseen, hscale, ⟨hovf, hreg, hle⟩ | ⟨hovf, hlt⟩⟩ := h
  · have hv : (10 * b.reg + d) % 2 ^ (w + 4) = 10 * r.acc + d := by
      rw [hreg, Nat.mod_eq_of_lt (accumulate_lt hw hle hd)]
    rw [boundedAccumulate, hovf, hv]
    refine ⟨hph, hneg, hseen, hscale, ?_⟩
    by_cases hbound : 2 ^ (w - 1) < 10 * r.acc + d
    · exact .inr ⟨decide_eq_true hbound, hbound⟩
    · exact .inl ⟨decide_eq_false hbound, rfl, not_lt.mp hbound⟩
  · simp only [boundedAccumulate, hovf, if_true]
    exact ⟨hph, hneg, hseen, hscale, .inr ⟨hovf, by dsimp only; omega⟩⟩

/-- A digit, phase by phase (R94). -/
theorem boundedStep_digit_tracks {w : Nat} {b : BoundedParser} {r : Parser} {c : Byte} (hw : 8 ≤ w)
    (h : b.Tracks w r) (hc : isDigit c = true) : (boundedStep w b c).Tracks w (parserStep r c) := by
  obtain ⟨hphase, hneg, -, hscale, hacc⟩ := boundedAccumulate_tracks hw (digitOf c).isLt h
  have hph := h.ph
  have hparser : parserStep r c = parserDigit (digitOf c).toNat r := if_pos hc
  rw [hparser, boundedStep, if_pos hc]
  cases hr : r.ph with
  | err =>
    rw [hph, hr, parserDigit_of_err _ hr]
    exact h
  | frac =>
    rw [hph, hr, parserDigit_of_frac _ hr]
    exact ⟨hphase.trans hr, hneg, rfl, congrArg (· + 1) h.scale, hacc⟩
  | _ =>
    rw [hph, hr, parserDigit_of_int _ (by simp [hr])]
    exact ⟨rfl, hneg, rfl, hscale, hacc⟩

theorem BoundedParser.Tracks.setPhase {w : Nat} {b : BoundedParser} {r : Parser}
    (h : b.Tracks w r) (p : Phase) :
    ({ b with ph := p } : BoundedParser).Tracks w { r with ph := p } :=
  ⟨rfl, h.neg, h.seen, h.scale, h.acc⟩

/-- A point, phase by phase (R95). -/
theorem boundedStep_point_tracks {w : Nat} {b : BoundedParser} {r : Parser} (h : b.Tracks w r) :
    (boundedStep w b 0x2E#8).Tracks w (parserPoint r) := by
  have hstep : boundedStep w b 0x2E#8
      = match b.ph with | .err => b | .frac => { b with ph := .err } | _ => { b with ph := .frac } :=
    rfl
  rw [hstep, h.ph]
  cases hr : r.ph with
  | frac =>
    rw [parserPoint_of_frac (.inl hr)]
    exact h.setPhase .err
  | err =>
    rw [parserPoint_of_frac (.inr hr)]
    exact ⟨h.ph.trans hr, h.neg, h.seen, h.scale, h.acc⟩
  | _ =>
    rw [parserPoint_of_int (by simp [hr])]
    exact h.setPhase .frac

/-- A sign, '-' for `neg`: it is taken at START and fails in every other phase (R96). -/
theorem boundedStep_sign_tracks {w : Nat} {b : BoundedParser} {r : Parser} (h : b.Tracks w r)
    (neg : Bool) :
    (boundedStep w b (if neg then 0x2D#8 else 0x2B#8)).Tracks w (parserSign neg r) := by
  have hstep : boundedStep w b (if neg then 0x2D#8 else 0x2B#8)
      = match b.ph with
        | .start => { b with neg := neg, ph := .signed }
        | _ => { b with ph := .err } := by
    cases neg <;> rfl
  rw [hstep, h.ph]
  cases hr : r.ph with
  | start =>
    rw [parserSign_of_start neg hr]
    exact ⟨rfl, rfl, h.seen, h.scale, h.acc⟩
  | _ =>
    rw [parserSign_of_ne_start neg (by simp [hr])]
    exact h.setPhase .err

theorem boundedStep_tracks {w : Nat} {b : BoundedParser} {r : Parser} (hw : 8 ≤ w)
    (h : b.Tracks w r) (c : Byte) : (boundedStep w b c).Tracks w (parserStep r c) := by
  cases hdigit : isDigit c with
  | true => exact boundedStep_digit_tracks hw h hdigit
  | false =>
    by_cases hpoint : c = 0x2E#8
    · exact hpoint ▸ boundedStep_point_tracks h
    · by_cases hplus : c = 0x2B#8
      · exact hplus ▸ boundedStep_sign_tracks h false
      · by_cases hminus : c = 0x2D#8
        · exact hminus ▸ boundedStep_sign_tracks h true
        · have hbounded : boundedStep w b c = { b with ph := .err } := by
            simp [boundedStep, hdigit, isPoint, isPlus, isMinus, hpoint, hplus, hminus]
          have hparser : parserStep r c = { r with ph := .err } := by
            simp [parserStep, hdigit, isPoint, isPlus, isMinus, hpoint, hplus, hminus, parserOther]
          exact hbounded ▸ hparser ▸ h.setPhase .err

theorem bounded_fold_tracks {w : Nat} (hw : 8 ≤ w) (t : List Byte) {b : BoundedParser} {r : Parser}
    (h : b.Tracks w r) : (t.foldl (boundedStep w) b).Tracks w (t.foldl parserStep r) := by
  induction t generalizing b r with
  | nil => exact h
  | cons c rest ih => exact ih (boundedStep_tracks hw h c)

theorem boundedInit_tracks (w : Nat) : boundedInit.Tracks w Parser.init :=
  ⟨rfl, rfl, rfl, rfl, .inl ⟨rfl, rfl, Nat.zero_le _⟩⟩

theorem magnitudeLimit_le (w : Nat) (neg : Bool) : magnitudeLimit w neg ≤ 2 ^ (w - 1) := by
  unfold magnitudeLimit
  split
  · exact le_rfl
  · exact Nat.sub_le _ 1

/-- An accumulator past the bound is out of range for both signs, so the overflow bit decides as the
range check does (R98). -/
theorem boundedResult_eq {w : Nat} {b : BoundedParser} {r : Parser} (h : b.Tracks w r) :
    boundedResult w b = parserResult w r := by
  obtain ⟨hph, hneg, hseen, hscale, ⟨hovf, hreg, -⟩ | ⟨hovf, hlt⟩⟩ := h
  · simp [boundedResult, parserResult, hph, hneg, hseen, hscale, hovf, hreg]
  · have hrange : r.acc > magnitudeLimit w r.neg := (magnitudeLimit_le w r.neg).trans_lt hlt
    simp [boundedResult, parserResult, hovf, hrange]

/-! ### Stepping the units (R89, R93, log entry 3) -/

/-- What an input does to the scan's registers. -/
def scanInput (r : Scan) : Input → Scan
  | .scanByte b => scanStep r b
  | _ => r

/-- What an input does to the tokeniser's registers. -/
def toksInput (k : Tokens) : Input → Tokens
  | .textByte b => tokStep k b
  | _ => k

/-- What an input does to the parser's registers. -/
def parserInput (q : Parser) : Input → Parser
  | .tokenChar c => parserStep q c
  | _ => q

/-- The state after the step of an input to a unit. -/
def unitUpdate (s : State) (inp : Input) : State :=
  setParser (parserInput s.parser inp) (setToks (toksInput s.toks inp)
    (setScan (scanInput s.scan inp) (beginStep (takeInput s))))

theorem quiet_unitUpdate (s : State) (inp : Input) : Quiet (unitUpdate s inp) :=
  quiet_units (takeInput s) _ _ _

/-- The scan takes every byte by its class, whether it has a row or not (R73, R74). -/
theorem step_scanByte {s : State} {b : Byte} {rest : List Input} (hc : configOk s.cfg = true)
    (hin : s.inputs = .scanByte b :: rest) : step s = .next (unitUpdate s (.scanByte b)) := by
  have hscan : scanInput s.scan (.scanByte b) = scanStep s.scan b := rfl
  unfold step
  rw [(step_of_waiting hin).1, decodeInput, decodeScan, unitUpdate, hscan, scanStep]
  split_ifs
  · exact exec_txtTerm_eq_next.mpr ⟨hc, rfl⟩
  · exact perform_ok_eq_next.mpr ⟨hc, rfl⟩
  · exact exec_txtNonAscii_eq_next.mpr ⟨hc, rfl⟩

theorem step_textByte {s : State} {b : Byte} {rest : List Input} (hc : configOk s.cfg = true)
    (hin : s.inputs = .textByte b :: rest) : step s = .next (unitUpdate s (.textByte b)) := by
  have htoks : toksInput s.toks (.textByte b) = tokStep s.toks b := rfl
  unfold step
  rw [(step_of_waiting hin).1, decodeInput, decodeText, unitUpdate, htoks, tokStep]
  split_ifs
  · exact exec_tokWs_eq_next.mpr ⟨hc, rfl⟩
  · exact perform_ok_eq_next.mpr ⟨hc, rfl⟩

theorem step_tokenChar {s : State} {c : Byte} {rest : List Input} (hc : configOk s.cfg = true)
    (hin : s.inputs = .tokenChar c :: rest) : step s = .next (unitUpdate s (.tokenChar c)) := by
  unfold step
  rw [(step_of_waiting hin).1, decodeInput]
  exact exec_decodeChar c hc

theorem step_unitInput {s : State} {inp : Input} {rest : List Input} (hc : configOk s.cfg = true)
    (hin : s.inputs = inp :: rest) (hunit : ∀ w, inp ≠ .word w) :
    step s = .next (unitUpdate s inp) := by
  cases inp with
  | word w => exact absurd rfl (hunit w)
  | scanByte b => exact step_scanByte hc hin
  | textByte b => exact step_textByte hc hin
  | tokenChar c => exact step_tokenChar hc hin

theorem run_succ {M : Host.Core} {s t : M.State} (k : Nat) (h : M.step s = .next t) :
    Host.Core.run M (k + 1) s = Host.Core.run M k t := by
  simp only [Host.Core.run, h]

/-- As many steps as inputs to the units run them all, oldest first. -/
theorem run_unitInputs {ins rest : List Input} {s : State} (hc : configOk s.cfg = true)
    (hin : s.inputs = ins ++ rest) (hunit : ∀ inp ∈ ins, ∀ w, inp ≠ .word w) :
    Host.Core.run core ins.length s = .next (ins.foldl unitUpdate s) := by
  induction ins generalizing s with
  | nil => rfl
  | cons inp more ih =>
    obtain ⟨hfirst, hmore⟩ := List.forall_mem_cons.mp hunit
    have hstep : core.step s = .next (unitUpdate s inp) := step_unitInput hc hin hfirst
    have hleft : (unitUpdate s inp).inputs = more ++ rest := by
      simp [unitUpdate, hin]
    exact (run_succ more.length hstep).trans (ih hc hleft hmore)

/-- What a run of the inputs `ins` to the units leaves: each unit has taken its own inputs, `rest` is
still waiting, the block is as before, and the last step has cleared the strobes. -/
structure UnitsRan (ins rest : List Input) (s u : State) : Prop where
  scan : u.scan = ins.foldl scanInput s.scan
  toks : u.toks = ins.foldl toksInput s.toks
  parser : u.parser = ins.foldl parserInput s.parser
  inputs : u.inputs = rest
  cfg : u.cfg = s.cfg
  buf : u.buf = s.buf
  len : u.len = s.len
  meas : u.meas = s.meas
  measValid : u.measValid = s.measValid
  quiet : ins ≠ [] → Quiet u

theorem quiet_foldl_unitUpdate {ins : List Input} {s : State} (h : Quiet s) :
    Quiet (ins.foldl unitUpdate s) := by
  induction ins generalizing s with
  | nil => exact h
  | cons inp more ih => exact ih (quiet_unitUpdate s inp)

theorem foldl_unitUpdate_ran {ins rest : List Input} {s : State} (hin : s.inputs = ins ++ rest) :
    UnitsRan ins rest s (ins.foldl unitUpdate s) := by
  induction ins generalizing s with
  | nil => exact ⟨rfl, rfl, rfl, hin, rfl, rfl, rfl, rfl, rfl, fun h => absurd rfl h⟩
  | cons inp more ih =>
    have hleft : (unitUpdate s inp).inputs = more ++ rest := by
      simp [unitUpdate, hin]
    obtain ⟨hscan, htoks, hparser, hinputs, hcfg, hbuf, hlen, hmeas, hvalid, -⟩ := ih hleft
    exact ⟨hscan, htoks, hparser, hinputs, hcfg, hbuf, hlen, hmeas, hvalid,
      fun _ => quiet_foldl_unitUpdate (ins := more) (quiet_unitUpdate s inp)⟩

theorem exists_run_unitInputs {ins rest : List Input} {s : State} (hc : configOk s.cfg = true)
    (hin : s.inputs = ins ++ rest) (hunit : ∀ inp ∈ ins, ∀ w, inp ≠ .word w) :
    ∃ u : State, Host.Core.run core ins.length s = .next u ∧ UnitsRan ins rest s u :=
  ⟨_, run_unitInputs hc hin hunit, foldl_unitUpdate_ran hin⟩

/-- Registers that no input of a list moves stay. -/
theorem foldl_unmoved {α β : Type} (f : α → Input → α) (g : β → Input)
    (h : ∀ a b, f a (g b) = a) (l : List β) (a : α) : (l.map g).foldl f a = a := by
  rw [List.foldl_map]
  induction l with
  | nil => rfl
  | cons b rest ih => rw [List.foldl_cons, h, ih]

theorem foldl_scanInput (p : List Byte) (r : Scan) :
    (p.map Input.scanByte).foldl scanInput r = p.foldl scanStep r := List.foldl_map

theorem foldl_toksInput (l : List Byte) (k : Tokens) :
    (l.map Input.textByte).foldl toksInput k = l.foldl tokStep k := List.foldl_map

theorem foldl_parserInput (t : List Byte) (q : Parser) :
    (t.map Input.tokenChar).foldl parserInput q = t.foldl parserStep q := List.foldl_map

end Sys2Proof.Machine

end

section

open Sys2Proof Sys2Proof.Machine

/-- Settles O45: the value's range is `parse_range`, with token 1 of at most 40 bytes; the packet's
lengths are those of the two checks on it. -/
theorem decodedRecordFieldsAreInRange : Obligations.DecodedRecordFieldsAreInRange := by
  intro c p m _ hd
  obtain ⟨hl, ht, -, t0, t1, ts, v, htoks, hparse, rfl⟩ := decode_eq_ok hd
  obtain ⟨hscale, hlo, hhi⟩ := parse_range hparse
  have htoken := token1_length_le hl ht htoks
  have hv : v.2 ≤ 39 := by omega
  exact ⟨hlo, hhi, hv, tidyLength_le hl ht, rfl, hl⟩

/-- Settles O46: the one update of PC_DIGIT, by the parser's phase. -/
theorem digitTransition : Obligations.DigitTransition := fun s d hc _ =>
  ⟨_, exec_pcDigit_eq_next.mpr ⟨hc, rfl⟩, sameBlock_units s s.scan s.toks _, quiet_beginStep s,
    rfl, rfl, parserDigit_of_int d.toNat, parserDigit_of_frac d.toNat, parserDigit_of_err d.toNat⟩

/-- Settles O47: the one update of PC_POINT, by the parser's phase. -/
theorem pointTransition : Obligations.PointTransition := fun s hc =>
  ⟨_, exec_pcPoint_eq_next.mpr ⟨hc, rfl⟩, sameBlock_units s s.scan s.toks _, quiet_beginStep s,
    rfl, rfl, parserPoint_of_int, parserPoint_of_frac⟩

/-- Settles O48: both rows are `parserSign`, taken at START only. -/
theorem signTransition : Obligations.SignTransition := by
  rintro s i neg hc (⟨rfl, rfl⟩ | ⟨rfl, rfl⟩)
  · exact ⟨_, exec_pcPlus_eq_next.mpr ⟨hc, rfl⟩, sameBlock_units s s.scan s.toks _,
      quiet_beginStep s, rfl, rfl, parserSign_of_start false, parserSign_of_ne_start false⟩
  · exact ⟨_, exec_pcMinus_eq_next.mpr ⟨hc, rfl⟩, sameBlock_units s s.scan s.toks _,
      quiet_beginStep s, rfl, rfl, parserSign_of_start true, parserSign_of_ne_start true⟩

/-- Settles O49: PC_OTHER's one update. -/
theorem otherTransition : Obligations.OtherTransition := fun s _ hc =>
  ⟨_, exec_pcOther_eq_next.mpr ⟨hc, rfl⟩, sameBlock_units s s.scan s.toks _, quiet_beginStep s,
    rfl, rfl, rfl⟩

/-- Settles O50: the one update of each row, by whether the scan has met a terminator and whether a token
is open. -/
theorem textClassTransitions : Obligations.TextClassTransitions := by
  refine fun s b hc => ⟨?_, fun _ => ?_, fun _ => ?_⟩
  · refine ⟨_, exec_txtTerm_eq_next.mpr ⟨hc, rfl⟩, sameBlock_units s _ s.toks s.parser,
      quiet_beginStep s, rfl, rfl, rfl, rfl, ?_⟩
    cases hk : s.scan.tidyLen <;> simp [scanTerm, hk]
  · refine ⟨_, exec_txtNonAscii_eq_next.mpr ⟨hc, rfl⟩, sameBlock_units s _ s.toks s.parser,
      quiet_beginStep s, rfl, rfl, rfl, rfl, ?_⟩
    simp [scanNonAscii]
  · refine ⟨_, exec_tokWs_eq_next.mpr ⟨hc, rfl⟩, sameBlock_units s s.scan _ s.parser,
      quiet_beginStep s, rfl, rfl, ?_⟩
    cases hcur : s.toks.cur <;> simp [tokBreak, hcur]

/-- Settles O51: the folds of the definition, `exec_decodeChar`, and `parser_fold_err`. -/
theorem errorPhaseIsAbsorbing : Obligations.ErrorPhaseIsAbsorbing := by
  refine ⟨rfl, fun _ _ _ => rfl, fun s t c h => ?_, fun r t w hr => ?_⟩
  · cases hc : configOk s.cfg with
    | false => rw [exec_of_not_configOk _ hc] at h; cases h
    | true =>
      rw [exec_decodeChar c hc] at h
      cases h
      rfl
  · have herr := parser_fold_err t hr
    exact ⟨herr, parserResult_of_err herr⟩

/-- Settles O53: the token's parts and the digit string's value are those of the grammar, and the digit
string divided by its scale is the number with the point (`decimalValue_div`). -/
theorem primaryValueIsTheNumberWritten : Obligations.PrimaryValueIsTheNumberWritten := by
  intro w t mant scale h
  obtain ⟨sign, int, point, frac, htoken, rfl, hvalue⟩ :=
    (parserAcceptsExactlyTheGrammar w t mant scale).mp h
  refine ⟨sign, int, point, frac, htoken, ?_⟩
  rw [primaryNumber, ← decimalValue_div]
  split_ifs at hvalue ⊢ with hminus
  · obtain ⟨-, rfl⟩ := hvalue
    push_cast
    ring
  · obtain ⟨-, rfl⟩ := hvalue
    push_cast
    ring

/-- Settles O54: the bounded parser tracks the exact one over the token, and then both give one result. -/
theorem boundedAccumulatorGivesTheSameResults : Obligations.BoundedAccumulatorGivesTheSameResults :=
  fun w t hw => boundedResult_eq (bounded_fold_tracks hw t (boundedInit_tracks w))

/-- Settles O55: the run takes each character by the parser's transition (`foldl_parserInput`). -/
theorem steppingATokenComputesParse : Obligations.SteppingATokenComputesParse := by
  intro s t rest hc hinit hin
  obtain ⟨u, hrun, h⟩ := exists_run_unitInputs hc hin (by simp)
  have hscan := h.scan
  have htoks := h.toks
  have hparser := h.parser
  rw [foldl_unmoved scanInput _ fun _ _ => rfl] at hscan
  rw [foldl_unmoved toksInput _ fun _ _ => rfl] at htoks
  rw [foldl_parserInput, hinit] at hparser
  rw [List.length_map] at hrun
  refine ⟨u, hrun, h.inputs, ?_, h.cfg, h.buf, h.len, h.meas, h.measValid, hscan, htoks,
    fun hne => h.quiet (by simpa using hne)⟩
  rw [h.cfg, hparser, parse]

/-- Settles O56: the scan takes the packet and the tokeniser its tidy packet, each by its own
transitions; the tokens need no trim (`tokenize_eq_fold`). -/
theorem steppingAPacketComputesItsText : Obligations.SteppingAPacketComputesItsText := by
  intro s p hc hscan0 htoks0 hl ht hin
  have hunit : ∀ inp ∈ p.map Input.scanByte ++ (tidyOf p).map Input.textByte,
      ∀ w, inp ≠ .word w := by
    rintro _ hmem w rfl
    simp at hmem
  obtain ⟨u, hrun, h⟩ := exists_run_unitInputs hc (hin.trans (List.append_nil _).symm) hunit
  have hscan := h.scan
  have htoks := h.toks
  have hparser := h.parser
  rw [List.foldl_append, foldl_scanInput, foldl_unmoved scanInput .textByte fun _ _ => rfl,
    hscan0] at hscan
  rw [List.foldl_append, foldl_unmoved toksInput .scanByte fun _ _ => rfl, foldl_toksInput,
    htoks0] at htoks
  rw [List.foldl_append, foldl_unmoved parserInput .scanByte fun _ _ => rfl,
    foldl_unmoved parserInput .textByte fun _ _ => rfl] at hparser
  rw [List.length_append, List.length_map, List.length_map] at hrun
  have hne : p ≠ [] := List.ne_nil_of_length_pos (by omega)
  obtain ⟨q, -, -, -, -, hpacket, hk, -⟩ := packet_split hl ht
  refine ⟨u, hrun, h.inputs, ?_, congrArg Scan.nonAscii hscan, ?_, h.cfg, h.buf, h.len, h.meas,
    h.measValid, hparser, h.quiet (by simp [hne])⟩
  · rw [hk]
    exact congrArg Scan.tidyLen (hscan.trans hpacket)
  · rw [htoks, tokenize_eq_fold]

end
